-- ==== Sys2Proof/Word.lean ====
section
/-! DEFINITION. The word types of the unit (spec 00_scope.md R7, R9; 10_state.md R20). -/

namespace Sys2Proof

/-- One byte: a command byte, a symbol, an emitted byte (R7). Bit 7 is its most significant bit (R9). -/
abbrev Byte := BitVec 8

/-- A node index (R30). -/
abbrev NodeIndex := BitVec 16

/-- A payload bit count (R7, CNT_W; R24, R25). -/
abbrev BitCount := BitVec 32

/-- A bit-string, first bit first (R9). -/
abbrev BitString := List Bool

end Sys2Proof
end

