-- ==== Sys2Proof/Config.lean ====
section
/-! DEFINITION. The parameters of the unit. Every one has a fixed value in the spec and none is left to an
implementation (00_scope.md R7), so there is no free value here. -/

namespace Sys2Proof.Config

/-- NODES: the node words of the node memory (R7, R30). -/
def nodes : Nat := 65536

/-- The largest payload bit count the container's 4-byte field can hold (R24, R132). -/
def maxBitCount : Nat := 2 ^ 32 - 1

/-- The longest command, in bytes: LENTRY with L = 255 (R80). -/
def longestCommand : Nat := 35

end Sys2Proof.Config
end

