-- ==== Sys2Proof/Machine/State.lean ====
section
/-! DEFINITION. The state of the unit as plain data (10_state.md R20 to R34), the reasons a step can stop, and the
state after hardware reset (R39). -/

namespace Sys2Proof.Machine

/-- The values of `fsm` (R21). The codes 5 and 6 are produced by no rule and are not in the type
(93_implementation_defined.md U5; log entry 3). -/
inductive Phase where
  | idle
  | pack
  | load
  | decode
  | done
  | fault
  deriving DecidableEq, Repr

/-- The error kinds of R160, codes 1 to 6. Code 0 (None) is `none` of the register `err`; code 7 is never produced
(U5; log entry 3). -/
inductive ErrorKind where
  | emptyAlphabet
  | malformedCodeTable
  | truncatedPayload
  | corruptContainer
  | bitCountOverflow
  | illegalCommand
  deriving DecidableEq, Repr

/-- The `tag` of a node word that has been written (R31); 0 and 3 are never written (U5; log entry 3). -/
inductive Tag where
  | internal
  | leaf
  deriving DecidableEq, Repr

/-- One node word (R31). A child field 0 means "no child" (R30). -/
structure NodeWord where
  tag : Tag
  sym : Byte
  c0 : NodeIndex
  c1 : NodeIndex
  deriving DecidableEq, Repr

/-- The node memory (R30): the node words that the current operation has written, by index, in strictly rising order.
An index that is not listed holds an unspecified word, which has no value (R39, R192; log entry 2). -/
abbrev Memory := List (Nat × NodeWord)

/-- What the host can send (70_reset_and_hazards.md R190, R195): a byte of the command stream, or hardware reset. -/
inductive HostInput where
  | byte (b : Byte)
  | reset
  deriving DecidableEq, Repr

/-- The state of the unit. The registers are R20's, each under its own name. -/
structure State where
  /-- the phase of the operation (R21) -/
  fsm : Phase
  /-- the error kind of the fault; `none` is code 0 (R22) -/
  err : Option ErrorKind
  /-- pending packed bits, right-aligned (R23) -/
  acc : Byte
  /-- how many bits of `acc` are pending (R23) -/
  nacc : BitVec 3
  /-- bits packed in this operation (R24) -/
  bitcnt : BitCount
  /-- payload bits still to be decoded (R25) -/
  rem : BitCount
  /-- the walker's cursor (R26) -/
  cur : NodeIndex
  /-- the next unallocated node index (R27) -/
  nfree : NodeIndex
  /-- table entries loaded (R28) -/
  nent : BitVec 9
  /-- `seen[s]` is bit s (R29) -/
  seen : BitVec 256
  /-- the node memory (R30) -/
  mem : Memory
  /-- the emitted bytes, oldest first (R32) -/
  out : List Byte
  /-- the command assembly buffer (R34) -/
  cbuf : List Byte
  /-- the model's own field: what the host has sent and the unit has not yet accepted, oldest first (R33, R195;
  DESIGN CHOICE, log entry 1) -/
  inputs : List HostInput
  deriving DecidableEq, Repr

/-- The stops of the model. The unit's own errors are not stops: they are the FAULT phase, a next state (R170). -/
inductive Fault where
  /-- LENTRY or DBYTE read the node word at this index and the current operation has not written it: the word is
  unspecified and R39 has a model treat the read as a fault, never as a value. Safe. No reachable state raises it
  (R36 (f)). -/
  | nodeUnspecified (index : Nat)
  deriving DecidableEq, Repr

/-- The refusals of the model. -/
inductive Refusal where
  /-- An arm of `exec` whose instruction has no meaning yet. Safe. No arm answers it: every row is modelled. -/
  | notModelled (mnemonic : String)
  deriving DecidableEq, Repr

/-- The state after hardware reset: every register 0, `out` and `cbuf` empty, every node word unspecified (R39). -/
def State.reset : State where
  fsm := .idle
  err := none
  acc := 0
  nacc := 0
  bitcnt := 0
  rem := 0
  cur := 0
  nfree := 0
  nent := 0
  seen := 0
  mem := []
  out := []
  cbuf := []
  inputs := []

end Sys2Proof.Machine
end

