-- ==== Sys2Proof/Machine/Flags.lean ====
section
/-! DEFINITION. The status the host reads: the codes of `fsm` and `err`, the level outputs, and the result of an
operation (10_state.md R21, R22, R35; 60_exceptions.md R160, R172, R176). `err` is the unit's only condition flag and
fault entry, in Ops.lean, its only setter (R22). -/

namespace Sys2Proof.Machine

/-- The 3-bit code of a phase (R21). -/
def Phase.code : Phase → BitVec 3
  | .idle => 0
  | .pack => 1
  | .load => 2
  | .decode => 3
  | .done => 4
  | .fault => 7

/-- The 3-bit code of an error kind (R160). -/
def ErrorKind.code : ErrorKind → BitVec 3
  | .emptyAlphabet => 1
  | .malformedCodeTable => 2
  | .truncatedPayload => 3
  | .corruptContainer => 4
  | .bitCountOverflow => 5
  | .illegalCommand => 6

/-- `st_fsm` (R196). -/
def State.fsmCode (s : State) : BitVec 3 := s.fsm.code

/-- `st_err` (R196): 0 when there is no fault (R160). -/
def State.errCode (s : State) : BitVec 3 :=
  match s.err with
  | none => 0
  | some k => k.code

/-- The output `done` (R35). -/
def State.done (s : State) : Bool := s.fsmCode == 4

/-- The output `fault` (R35). -/
def State.fault (s : State) : Bool := s.fsmCode == 7

/-- The result of an operation (R172). -/
inductive OpResult where
  | ok (out : List Byte) (bitcnt : BitCount)
  | fail (err : BitVec 3)
  | notOver
  deriving DecidableEq, Repr

/-- R172: `Ok(out, bitcnt)` in DONE, `Fail(err)` in FAULT, undefined (the operation is not over, R176) otherwise. -/
def State.result (s : State) : OpResult :=
  match s.fsm with
  | .done => .ok s.out s.bitcnt
  | .fault => .fail s.errCode
  | .idle => .notOver
  | .pack => .notOver
  | .load => .notOver
  | .decode => .notOver

/-- An operation is over exactly in DONE and FAULT (R176). -/
def State.over (s : State) : Bool := s.done || s.fault

end Sys2Proof.Machine
end

