-- ==== Sys2Proof/Machine/Operands.lean ====
section
/-! DEFINITION. The operand forms: how the bytes of a command give bits (30_encoding.md R85, R87; 20_memory.md R60,
R65), and the fields of a node word. -/

namespace Sys2Proof.Machine

/-- Bit `i` of a bit-string held most-significant-bit-first in bytes: `B[i div 8][7 - (i mod 8)]` (R9). A byte that
is not there reads as 0; a well-formed command never asks for one (log entry 8). -/
def bitAt (bytes : List Byte) (i : Nat) : Bool :=
  (bytes.getD (i / 8) 0).getLsbD (7 - i % 8)

/-- The code of a PCODE or LENTRY: its first `L` bits; the pad bits of the last byte are ignored (R65, R85). -/
def codeBits (len : Byte) (code : List Byte) : BitString :=
  (List.range len.toNat).map (bitAt code)

/-- `k = min(8, rem)`, the payload bits a DBYTE supplies (R87, R144). -/
def payloadCount (rem : BitCount) : Nat := min 8 rem.toNat

/-- The payload bits of a DBYTE: `b[7], b[6], ..., b[8-k]`; the rest are ignored (R65, R87). -/
def payloadBits (b : Byte) (rem : BitCount) : BitString :=
  (List.range (payloadCount rem)).map fun j => b.getLsbD (7 - j)

/-- `node.c{b}` (R10). -/
def NodeWord.child (n : NodeWord) (b : Bool) : NodeIndex := if b then n.c1 else n.c0

/-- `node.c{b} <- c`: the word with only that field changed (R10). -/
def NodeWord.setChild (n : NodeWord) (b : Bool) (c : NodeIndex) : NodeWord :=
  if b then { n with c1 := c } else { n with c0 := c }

/-- A fresh node: INTERNAL with no children (R121, R124; 90_conflicts.md C5). -/
def NodeWord.emptyInternal : NodeWord where
  tag := .internal
  sym := 0
  c0 := 0
  c1 := 0

/-- A leaf holding a symbol (R31, R124). -/
def NodeWord.leafOf (sym : Byte) : NodeWord where
  tag := .leaf
  sym := sym
  c0 := 0
  c1 := 0

end Sys2Proof.Machine
end

