-- ==== Sys2Proof/Syntax.lean ====
section
/-! DEFINITION. The commands of the unit: one constructor per row of spec/opcode_table.json (30_encoding.md R82, R95). -/

namespace Sys2Proof

/-- A decoded command with its operands as they stand in the stream (R81, R95). The code bytes of PCODE and LENTRY
are kept whole, pad bits included, so that nothing of the encoding is dropped. -/
inductive Instr where
  /-- 0x00 (R112) -/
  | nop
  /-- 0x01 (R113) -/
  | clr
  /-- 0x10 (R131) -/
  | pstart
  /-- 0x11 L B[0..ceil(L/8)-1] (R132) -/
  | pcode (len : Byte) (code : List Byte)
  /-- 0x12 (R133) -/
  | pend
  /-- 0x20 (R121) -/
  | lstart
  /-- 0x21 sym L B[0..ceil(L/8)-1] (R124) -/
  | lentry (sym : Byte) (len : Byte) (code : List Byte)
  /-- 0x30 N[31:24] N[23:16] N[15:8] N[7:0] (R141) -/
  | dstart (n : BitCount)
  /-- 0x31 b (R142) -/
  | dbyte (b : Byte)
  /-- 0x32 (R143) -/
  | dend
  /-- a reserved opcode byte (R88, R114) -/
  | illegal (op : Byte)
  deriving DecidableEq, Repr

end Sys2Proof
end

