-- ==== Sys2Proof/Machine/Ops.lean ====
section
/-! DEFINITION. The operations every command is written over: the node memory, `emit`, fault entry and the return
from a fault, the clearing that starts an operation, and the dispatch every command passes through first. -/

namespace Sys2Proof.Machine

/-- What executing a command answers. -/
abbrev Result := Host.Outcome State Fault Refusal

/-! ### The node memory (R10, R30, R66, R68) -/

/-- The canonical form: indices strictly rising and inside the node memory. An unlisted index reads as no value, which
no entry can equal. -/
abbrev Memory.wf (m : Memory) : Prop :=
  (m.map Prod.fst).Pairwise (· < ·) ∧ ∀ i ∈ m.map Prod.fst, i < Config.nodes

/-- The word at an index, `none` where the current operation has written none (R39, R192). -/
def memRead : Memory → Nat → Option NodeWord
  | [], _ => none
  | (a, n) :: rest, i => if a = i then some n else memRead rest i

/-- The memory with the word at an index written, in canonical form. -/
def memWrite : Memory → Nat → NodeWord → Memory
  | [], i, n => [(i, n)]
  | (a, v) :: rest, i, n =>
    if i < a then (i, n) :: (a, v) :: rest
    else if i = a then (i, n) :: rest
    else (a, v) :: memWrite rest i n

/-- `MemRead(i, 1)` (R10): go on with the word at node index `i`. An unspecified word has no value: the read of one is
the model's fault (R39). -/
def withNode (i : NodeIndex) (s : State) (go : NodeWord → Result) : Result :=
  match memRead s.mem i.toNat with
  | some n => go n
  | none => .fault (.nodeUnspecified i.toNat)

/-- `MemWrite(i, 1, n)` (R10). -/
def writeNode (i : NodeIndex) (n : NodeWord) (s : State) : State :=
  { s with mem := memWrite s.mem i.toNat n }

/-! ### Output -/

/-- `emit(b)` (R10): the only way `out` grows (R74). -/
def emit (b : Byte) (s : State) : State :=
  { s with out := s.out ++ [b] }

/-! ### Fault entry and return -/

/-- Fault entry with kind K: `err <- code(K)`, `fsm <- 7`, nothing else is written or saved (R170). -/
def faultEntry (k : ErrorKind) (s : State) : State :=
  { s with err := some k, fsm := .fault }

/-- `raise K`: the command stops here, the writes it has made stand, and fault entry follows (R10). The outcome is a
next state. -/
def raise (k : ErrorKind) (s : State) : Result :=
  .next (faultEntry k s)

/-- The effect of CLR, the return from a fault: the reset state, except that CLR cannot touch a partial command or
the host's stream (R34, R113, R174). -/
def clearAll (s : State) : State :=
  { State.reset with cbuf := s.cbuf, inputs := s.inputs }

/-- Hardware reset: the reset state, `cbuf` emptied; the bytes the host sends afterwards are still to come
(R190, R203). -/
def hardReset (s : State) : State :=
  { State.reset with inputs := s.inputs }

/-- The clearing with which PSTART and LSTART begin (R121, R131): every register of R20 but `fsm` and `err` (R38),
and `out`. The words of the node memory that earlier operations wrote become unspecified (U1; log entry 2). -/
def clearOperation (s : State) : State :=
  { s with
    acc := 0
    nacc := 0
    bitcnt := 0
    rem := 0
    cur := 0
    nfree := 0
    nent := 0
    seen := 0
    mem := []
    out := [] }

/-! ### Dispatch (R110, R111) -/

/-- The legality table of R111, "yes" being true. -/
def legal : Instr → Phase → Bool
  | .nop, p => p != .fault
  | .clr, _ => true
  | .pstart, p => p == .idle || p == .done
  | .pcode _ _, p => p == .pack
  | .pend, p => p == .pack
  | .lstart, p => p == .idle || p == .done
  | .lentry _ _ _, p => p == .load
  | .dstart _, p => p == .load
  | .dbyte _, p => p == .decode
  | .dend, p => p == .decode
  | .illegal _, _ => false

/-- Dispatch: the first of R110's four steps that applies. `body` is the command's own rule. -/
def dispatch (c : Instr) (body : State → Result) (s : State) : Result :=
  if c = .clr then body s
  else if s.fsm = .fault then .next s
  else if c = .nop then body s
  else if legal c s.fsm then body s
  else raise .illegalCommand s

end Sys2Proof.Machine
end

