-- ==== Sys2Proof/Machine/Control.lean ====
section
/-! DEFINITION. The control commands NOP, CLR and ILLEGAL (40_control.md R112 to R114). -/

namespace Sys2Proof.Machine

/-- NOP (R112): nothing, in every phase. -/
def execNop (s : State) : Result :=
  dispatch .nop (fun s => .next s) s

/-- CLR (R113): the reset state, from every phase, FAULT included. -/
def execClr (s : State) : Result :=
  dispatch .clr (fun s => .next (clearAll s)) s

/-- ILLEGAL(op) (R114): legal in no phase, so dispatch raises IllegalCommand, or ignores it in FAULT. It has no rule of
its own for dispatch to reach. -/
def execIllegal (op : Byte) (s : State) : Result :=
  dispatch (.illegal op) (raise .illegalCommand) s

end Sys2Proof.Machine
end

