-- ==== Sys2Proof/Machine/Packer.lean ====
section
/-! DEFINITION. The packer: PSTART, PCODE and PEND (42_packer.md R131 to R133). -/

namespace Sys2Proof.Machine

/-- PSTART (R131). -/
def execPstart (s : State) : Result :=
  dispatch .pstart (fun s => .next { clearOperation s with fsm := .pack }) s

/-- `{acc[6:0], w[i]}` (R132). -/
def shiftIn (acc : Byte) (b : Bool) : Byte := (acc.setWidth 7).concat b

/-- One turn of PCODE's loop (R132): the bit enters `acc`; the eighth pending bit completes a byte, which is emitted. -/
def packBit (b : Bool) (s : State) : State :=
  if s.nacc.toNat + 1 = 8 then
    { emit (shiftIn s.acc b) s with acc := 0, nacc := 0 }
  else
    { s with acc := shiftIn s.acc b, nacc := s.nacc + 1 }

/-- PCODE's loop over the bits of the code, in order (R132). -/
def packBits : BitString → State → State
  | [], s => s
  | b :: bs, s => packBits bs (packBit b s)

/-- PCODE (R132). The sum `bitcnt + L` is taken without wrap-around, and both checks come before any write. -/
def execPcode (len : Byte) (code : List Byte) (s : State) : Result :=
  dispatch (.pcode len code) (fun s =>
    if len = 0 then raise .corruptContainer s
    else if s.bitcnt.toNat + len.toNat > Config.maxBitCount then raise .bitCountOverflow s
    else
      let s' := packBits (codeBits len code) s
      .next { s' with bitcnt := s'.bitcnt + len.setWidth 32 }) s

/-- PEND (R133): `(acc << (8 - nacc))[7:0]`, the pending bits at the top of the byte and zeros below. -/
def execPend (s : State) : Result :=
  dispatch .pend (fun s =>
    if s.nacc = 0 then .next { s with fsm := .done }
    else .next { emit (s.acc <<< (8 - s.nacc.toNat)) s with acc := 0, nacc := 0, fsm := .done }) s

end Sys2Proof.Machine
end

