-- ==== Sys2Proof/Machine/TableLoad.lean ====
section
/-! DEFINITION. The table load: LSTART and LENTRY (41_table_load.md R121 to R124). -/

namespace Sys2Proof.Machine

/-- LSTART (R121): everything cleared, the empty root written, `nfree` 1. -/
def execLstart (s : State) : Result :=
  dispatch .lstart (fun s =>
    .next { writeNode 0 .emptyInternal (clearOperation s) with nfree := 1, fsm := .load }) s

/-- The missing child of R124: node `nfree` is written fresh, linked as child `b` of node `p`, and counted. The link
is a read-modify-write of word `p` (R10). -/
def createChild (p : NodeIndex) (b : Bool) (s : State) (go : State → Result) : Result :=
  let s1 := writeNode s.nfree .emptyInternal s
  withNode p s1 fun n => go { writeNode p (n.setChild b s.nfree) s1 with nfree := s.nfree + 1 }

/-- The end of R124, the insertion cursor on the last node of the code: the two end checks, then the leaf, `seen` and
`nent`. -/
def finishEntry (sym : Byte) (p : NodeIndex) (s : State) : Result :=
  withNode p s fun n =>
    if n.tag = .leaf then raise .malformedCodeTable s
    else if n.c0 ≠ 0 ∨ n.c1 ≠ 0 then raise .malformedCodeTable s
    else .next { writeNode p (.leafOf sym) s with
      seen := s.seen ||| BitVec.twoPow 256 sym.toNat
      nent := s.nent + 1 }

/-- R124's loop over the bits of the code from insertion cursor `p`, then its end. -/
def insertCode (sym : Byte) : BitString → NodeIndex → State → Result
  | [], p, s => finishEntry sym p s
  | b :: bs, p, s =>
    withNode p s fun n =>
      if n.tag = .leaf then raise .malformedCodeTable s
      else if n.child b = 0 then createChild p b s (insertCode sym bs s.nfree)
      else insertCode sym bs (n.child b) s

/-- LENTRY (R122 to R124). -/
def execLentry (sym len : Byte) (code : List Byte) (s : State) : Result :=
  dispatch (.lentry sym len code) (fun s =>
    if len = 0 then raise .corruptContainer s
    else if s.seen.getLsbD sym.toNat then raise .malformedCodeTable s
    else insertCode sym (codeBits len code) 0 s) s

end Sys2Proof.Machine
end

