-- ==== Sys2Proof/Machine/Walk.lean ====
section
/-! DEFINITION. The unpacker and the tree walker: DSTART, DBYTE and DEND (43_unpack_walk.md R141 to R149). -/

namespace Sys2Proof.Machine

/-- DSTART (R141). -/
def execDstart (n : BitCount) (s : State) : Result :=
  dispatch (.dstart n) (fun s =>
    if s.nent = 0 ∧ n ≠ 0 then raise .emptyAlphabet s
    else .next { s with rem := n, cur := 0, fsm := .decode }) s

/-- The walk step of R145 for one payload bit, `rem` already decremented for it: a missing child raises (R149), a leaf
emits its symbol and returns the cursor to the root, an internal node becomes the cursor. -/
def walkStep (bit : Bool) (s : State) (go : State → Result) : Result :=
  withNode s.cur s fun n =>
    if n.child bit = 0 then raise .corruptContainer s
    else withNode (n.child bit) s fun c =>
      if c.tag = .leaf then go { emit c.sym s with cur := 0 }
      else go { s with cur := n.child bit }

/-- R142's loop over the payload bits, then its leftover-path check (R146). -/
def walkBits : BitString → State → Result
  | [], s => if s.rem = 0 ∧ s.cur ≠ 0 then raise .corruptContainer s else .next s
  | bit :: bits, s => walkStep bit { s with rem := s.rem - 1 } (walkBits bits)

/-- DBYTE (R142): with `rem = 0` the byte is in excess and nothing is consumed (R147). -/
def execDbyte (b : Byte) (s : State) : Result :=
  dispatch (.dbyte b) (fun s =>
    if s.rem = 0 then raise .corruptContainer s
    else walkBits (payloadBits b s.rem) s) s

/-- DEND (R143). -/
def execDend (s : State) : Result :=
  dispatch .dend (fun s =>
    if s.rem ≠ 0 then raise .truncatedPayload s
    else .next { s with fsm := .done }) s

end Sys2Proof.Machine
end

