-- ==== Sys2Proof/Machine/Dispatch.lean ====
section
/-! DEFINITION. One arm per command: which meaning it has. -/

namespace Sys2Proof.Machine

def exec (i : Instr) (s : State) : Host.Outcome State Fault Refusal :=
  match i with
  | .nop => Sys2Proof.Machine.execNop s
  | .clr => Sys2Proof.Machine.execClr s
  | .pstart => Sys2Proof.Machine.execPstart s
  | .pcode len code => Sys2Proof.Machine.execPcode len code s
  | .pend => Sys2Proof.Machine.execPend s
  | .lstart => Sys2Proof.Machine.execLstart s
  | .lentry sym len code => Sys2Proof.Machine.execLentry sym len code s
  | .dstart n => Sys2Proof.Machine.execDstart n s
  | .dbyte b => Sys2Proof.Machine.execDbyte b s
  | .dend => Sys2Proof.Machine.execDend s
  | .illegal op => Sys2Proof.Machine.execIllegal op s

end Sys2Proof.Machine
end

