-- ==== Sys2Proof/WellFormed.lean ====
section
/-! DEFINITION. Which terms of `Instr` are commands of the encoding (30_encoding.md R80 to R89). -/

namespace Sys2Proof

/-- `ceil(L/8)`, the number of code bytes of a code of L bits (R9, R81). -/
def ceilBytes (len : Byte) : Nat := (len.toNat + 7) / 8

/-- The reserved opcode bytes, by the ranges of spec/opcode_table.json: every byte R82 does not list (R88). -/
def reservedOpcode (op : Byte) : Bool :=
  (0x02#8 ≤ op && op ≤ 0x0F#8) || (0x13#8 ≤ op && op ≤ 0x1F#8) || (0x22#8 ≤ op && op ≤ 0x2F#8) || 0x33#8 ≤ op

/-- A command is well formed when it carries exactly the code bytes its length field announces (R81; every value of
`L`, `sym`, `N` and `b` is legal as an encoding, R89) and an ILLEGAL carries a reserved opcode (R88). -/
def Instr.wf : Instr → Bool
  | .nop => true
  | .clr => true
  | .pstart => true
  | .pcode len code => code.length == ceilBytes len
  | .pend => true
  | .lstart => true
  | .lentry _ len code => code.length == ceilBytes len
  | .dstart _ => true
  | .dbyte _ => true
  | .dend => true
  | .illegal op => reservedOpcode op

end Sys2Proof
end

