-- ==== Sys2Proof/Decode.lean ====
section
/-! DEFINITION. Framing and decoding of the command stream, total on any bytes, and the encoder
(30_encoding.md R80 to R92, R95; spec/opcode_table.json). -/

namespace Sys2Proof

/-- Why a byte sequence gives no command. There is one reason: every opcode byte starts a command, a reserved one
included (R88), so bytes that are not a command are a command whose last byte has not arrived (R91). -/
inductive DecodeReject where
  | incomplete
  deriving DecidableEq, Repr

/-- The first command of a byte sequence and the bytes after it, or the reason there is none. -/
inductive Decoded where
  | command (i : Instr) (rest : List Byte)
  | reject (why : DecodeReject)
  deriving DecidableEq, Repr

/-- R80's `cmdlen`, the length in bytes of the command that starts the sequence; `none` while the byte that tells it
has not arrived (R91). -/
def cmdlen : List Byte → Option Nat
  | [] => none
  | op :: rest =>
    if op = 0x31 then some 2
    else if op = 0x30 then some 5
    else if op = 0x11 then rest[0]?.map fun len => 2 + ceilBytes len
    else if op = 0x21 then rest[1]?.map fun len => 3 + ceilBytes len
    else some 1

/-- Format FC after its opcode: `L`, then the code bytes (R81). -/
def decodePcode : List Byte → Decoded
  | [] => .reject .incomplete
  | len :: bs =>
    if bs.length < ceilBytes len then .reject .incomplete
    else .command (.pcode len (bs.take (ceilBytes len))) (bs.drop (ceilBytes len))

/-- Format FE after its opcode: `sym`, `L`, then the code bytes (R81). -/
def decodeLentry : List Byte → Decoded
  | sym :: len :: bs =>
    if bs.length < ceilBytes len then .reject .incomplete
    else .command (.lentry sym len (bs.take (ceilBytes len))) (bs.drop (ceilBytes len))
  | _ => .reject .incomplete

/-- `N = {byte1, byte2, byte3, byte4}`, most significant byte first (R61, R83). -/
def bigEndian32 (b1 b2 b3 b4 : Byte) : BitCount := b1 ++ b2 ++ b3 ++ b4

/-- Format FN after its opcode (R81). -/
def decodeDstart : List Byte → Decoded
  | b1 :: b2 :: b3 :: b4 :: rest => .command (.dstart (bigEndian32 b1 b2 b3 b4)) rest
  | _ => .reject .incomplete

/-- Format FB after its opcode (R81). -/
def decodeDbyte : List Byte → Decoded
  | b :: rest => .command (.dbyte b) rest
  | [] => .reject .incomplete

/-- The decoder: the opcode is the whole of byte 0 (R82); every opcode R82 does not list is a one-byte ILLEGAL
(R88). It looks at bytes only, never at the unit's state (R92). -/
def decode : List Byte → Decoded
  | [] => .reject .incomplete
  | op :: rest =>
    if op = 0x00 then .command .nop rest
    else if op = 0x01 then .command .clr rest
    else if op = 0x10 then .command .pstart rest
    else if op = 0x11 then decodePcode rest
    else if op = 0x12 then .command .pend rest
    else if op = 0x20 then .command .lstart rest
    else if op = 0x21 then decodeLentry rest
    else if op = 0x30 then decodeDstart rest
    else if op = 0x31 then decodeDbyte rest
    else if op = 0x32 then .command .dend rest
    else .command (.illegal op) rest

/-- The bytes of a command, in stream order (R81, R82). -/
def encode : Instr → List Byte
  | .nop => [0x00]
  | .clr => [0x01]
  | .pstart => [0x10]
  | .pcode len code => 0x11 :: len :: code
  | .pend => [0x12]
  | .lstart => [0x20]
  | .lentry sym len code => 0x21 :: sym :: len :: code
  | .dstart n => [0x30, n.extractLsb' 24 8, n.extractLsb' 16 8, n.extractLsb' 8 8, n.extractLsb' 0 8]
  | .dbyte b => [0x31, b]
  | .dend => [0x32]
  | .illegal op => [op]

/-- The bytes of a row of spec/opcode_table.json whose bits are `w`: byte k of the stream is bits 8k+7..8k, the bits
at and above `nbits` are 0, and operand bytes of zeros follow up to the longest command. -/
def tableBytes (nbits w : Nat) : List Byte :=
  (List.range Config.longestCommand).map fun k => BitVec.ofNat 8 ((w % 2 ^ nbits) / 2 ^ (8 * k))

/-- The bytes of the command that starts a sequence, cut off from what follows it. -/
def firstCommandBytes (bs : List Byte) : List Byte :=
  match decode bs with
  | .command _ rest => bs.take (bs.length - rest.length)
  | .reject _ => bs

/-- What the decoder reads from an instruction whose bits are `w`, numbered as spec/opcode_table.json numbers them. -/
def decodeTableWord (nbits w : Nat) : Option Instr :=
  match decode (tableBytes nbits w) with
  | .command i _ => some i
  | .reject _ => none

end Sys2Proof
end

