-- ==== Sys2Proof/Machine/Fetch.lean ====
section
/-! DEFINITION. How the unit accepts what the host sends: command bytes gather in `cbuf` until a command is complete
(10_state.md R34; 30_encoding.md R80, R91, R92), and hardware reset (R190, R203). -/

namespace Sys2Proof.Machine

/-- What accepting the next host event leads to: a command to execute, or a state with nothing to execute. -/
inductive Fetched where
  | run (i : Instr) (s : State)
  | wait (s : State)
  deriving DecidableEq, Repr

/-- Accept one command byte (R91): it joins `cbuf`; the byte that completes a command takes the command out of the
buffer to be executed, any other has no further effect (R34). Framing looks at no other state (R92). -/
def acceptByte (b : Byte) (s : State) : Fetched :=
  match decode (s.cbuf ++ [b]) with
  | .command i rest => .run i { s with cbuf := rest }
  | .reject .incomplete => .wait { s with cbuf := s.cbuf ++ [b] }

/-- Accept the next host event. With none the unit waits with all its state kept (R91, R178; log entry 4). -/
def fetch (s : State) : Fetched :=
  match s.inputs with
  | [] => .wait s
  | .reset :: later => .wait (hardReset { s with inputs := later })
  | .byte b :: later => acceptByte b { s with inputs := later }

/-- Place the bytes of one command so that the next byte accepted is its last: all but the last in `cbuf`, the last at
the head of the host's queue (log entry 1). -/
def placeCommand (bytes : List Byte) (s : State) : State :=
  { s with
    cbuf := bytes.dropLast
    inputs := (bytes.getLast?.toList.map HostInput.byte) ++ s.inputs }

end Sys2Proof.Machine
end

