-- ==== Sys2Proof/Machine/Step.lean ====
section
/-! DEFINITION. One step of the unit: accept one host event and, if a command is now complete, execute it
(30_encoding.md R91; 20_memory.md R70). -/

namespace Sys2Proof.Machine

/-- One step. -/
def step (s : State) : Host.Outcome State Fault Refusal :=
  match fetch s with
  | .run i s' => exec i s'
  | .wait s' => .next s'

/-- `s` with the instruction of a row of spec/opcode_table.json placed where `step` fetches its next command. -/
def State.withFetchWord (s : State) (nbits w : Nat) : State :=
  placeCommand (firstCommandBytes (tableBytes nbits w)) s

end Sys2Proof.Machine
end

