-- ==== Sys2Proof/Safety.lean ====
section
/-! DEFINITION. The terms claims use: the denoted code table of the node memory (10_state.md R37), the bits a packing
run has produced (R134), the parse of a payload (R148), runs of several commands, and the invariant of reachable
states (R36). -/

namespace Sys2Proof.Machine

/-! ### The tree in the node memory (R37) -/

/-- The node reached from node `p` along a bit-string, bit 0 by `c0` and bit 1 by `c1`; `none` where a child is
missing. -/
def follow (m : Memory) : NodeIndex → BitString → Option NodeIndex
  | p, [] => some p
  | p, b :: bs =>
    match memRead m p.toNat with
    | some n => if n.child b = 0 then none else follow m (n.child b) bs
    | none => none

/-- The symbol of node `p` if it is a LEAF. -/
def leafSym (m : Memory) (p : NodeIndex) : Option Byte :=
  match memRead m p.toNat with
  | some n => if n.tag = .leaf then some n.sym else none
  | none => none

/-- The denoted code table (R37): the pairs `(sym, w)` with `tableLookup m w = some sym`, `w` the path from the root to
a LEAF that holds `sym`. -/
def tableLookup (m : Memory) (w : BitString) : Option Byte :=
  (follow m 0 w).bind (leafSym m)

/-- The code `w` breaks prefix-freeness against the denoted table (R125): an entry's code is a prefix of `w`, equal
codes included, or `w` is a prefix of an entry's code. -/
def Conflicts (m : Memory) (w : BitString) : Prop :=
  ∃ v sym, tableLookup m v = some sym ∧ (v <+: w ∨ w <+: v)

/-- Where the path of a bit-string from node `p` leaves the tree: the node whose child is missing, and the bits from
there on. This is the one earlier node word that a LENTRY changes (R124). -/
def divergence (m : Memory) : NodeIndex → BitString → NodeIndex × BitString
  | p, [] => (p, [])
  | p, b :: bs =>
    match memRead m p.toNat with
    | some n => if n.child b = 0 then (p, b :: bs) else divergence m (n.child b) bs
    | none => (p, b :: bs)

/-- The node words that a LENTRY creates from index `i` on, `bits` being the bits of the code after the one that links
the first of them (R124): for each bit an INTERNAL node with the next node as its only child, and then the LEAF. -/
def newNodes (sym : Byte) : NodeIndex → BitString → List NodeWord
  | _, [] => [.leafOf sym]
  | i, b :: bits => NodeWord.emptyInternal.setChild b (i + 1) :: newNodes sym (i + 1) bits

/-- How a bit-string splits along the denoted table (R148): codes of entries one after another, with their symbols,
and then a rest that is no code yet and leads from the root to the INTERNAL node `i`. -/
inductive Parses (m : Memory) : BitString → List Byte → NodeIndex → Prop where
  | rest (v : BitString) (i : NodeIndex) : follow m 0 v = some i → leafSym m i = none → Parses m v [] i
  | code (w : BitString) (sym : Byte) (bits : BitString) (syms : List Byte) (i : NodeIndex) :
      tableLookup m w = some sym → Parses m bits syms i → Parses m (w ++ bits) (sym :: syms) i

/-! ### The packed bits (R134) -/

/-- The bits of a byte, most significant first (R60). -/
def byteBits (b : Byte) : BitString := (List.range 8).map fun j => b.getLsbD (7 - j)

/-- The pending bits `acc[nacc-1:0]`, oldest highest (R23). -/
def pendingBits (s : State) : BitString :=
  (List.range s.nacc.toNat).map fun j => s.acc.getLsbD (s.nacc.toNat - 1 - j)

/-- All the bits the packing run has taken so far (R134): those of `out`, then the pending ones. -/
def packedBits (s : State) : BitString := s.out.flatMap byteBits ++ pendingBits s

/-! ### Runs of several commands -/

/-- Commands executed one after another, each to completion (R70). -/
def execAll : List Instr → State → Result
  | [], s => .next s
  | i :: is, s =>
    match exec i s with
    | .next t => execAll is t
    | .fault r => .fault r
    | .refused r => .refused r

/-- `k` steps, stopping at the first stop. -/
def runSteps : Nat → State → Result
  | 0, s => .next s
  | k + 1, s =>
    match step s with
    | .next t => runSteps k t
    | .fault r => .fault r
    | .refused r => .refused r

/-- A step is safe when it answers a next state: the unit goes on, in whatever phase. -/
def SafeStep (s : State) : Prop := ∃ t, step s = .next t

/-- The register and memory values of R39: what hardware reset and CLR leave. Every node word is unspecified. -/
def ResetValues (t : State) : Prop :=
  t.fsmCode = 0 ∧ t.errCode = 0 ∧ t.acc = 0 ∧ t.nacc = 0 ∧ t.bitcnt = 0 ∧ t.rem = 0 ∧ t.cur = 0 ∧ t.nfree = 0 ∧
    t.nent = 0 ∧ (∀ sym : Byte, t.seen.getLsbD sym.toNat = false) ∧ t.out = [] ∧ ∀ i, memRead t.mem i = none

/-- The command is marked ILL by R111 in the phase. -/
def MarkedIllegal (i : Instr) (p : Phase) : Prop :=
  ((i = .pstart ∨ i = .lstart) ∧ p ≠ .idle ∧ p ≠ .done) ∨
  (((∃ len code, i = .pcode len code) ∨ i = .pend) ∧ p ≠ .pack) ∨
  (((∃ sym len code, i = .lentry sym len code) ∨ ∃ n, i = .dstart n) ∧ p ≠ .load) ∨
  (((∃ b, i = .dbyte b) ∨ i = .dend) ∧ p ≠ .decode) ∨
  ∃ op, i = .illegal op

/-- An entry of a code table as LENTRY carries it. -/
structure Entry where
  sym : Byte
  len : Byte
  code : List Byte
  deriving DecidableEq, Repr

/-- The code of an entry. -/
def Entry.bits (e : Entry) : BitString := codeBits e.len e.code

/-- The LENTRY of an entry (R120). -/
def Entry.load (e : Entry) : Instr := .lentry e.sym e.len e.code

/-- The PCODE of an entry's code (R130). -/
def Entry.pack (e : Entry) : Instr := .pcode e.len e.code

/-- A code table the unit accepts (R13, R127): one entry per symbol, every length 1 to 255, no code a prefix of
another. -/
def ValidTable (table : List Entry) : Prop :=
  (∀ e ∈ table, e.len ≠ 0) ∧
    table.Pairwise fun e f => e.sym ≠ f.sym ∧ ¬ e.bits <+: f.bits ∧ ¬ f.bits <+: e.bits

/-! ### The invariant (R36) -/

/-- The number of symbols marked in `seen`. -/
def seenCount (seen : BitVec 256) : Nat := (List.range 256).countP fun k => seen.getLsbD k

/-- The number of LEAF nodes. -/
def leafCount (m : Memory) : Nat := m.countP fun c => c.2.tag = .leaf

/-- R36 (c) and the node part of (d), for a memory of `nfree` nodes. -/
structure TreeOk (m : Memory) (nfree : Nat) : Prop where
  /-- exactly the indices below `nfree` have been written, each listed once, in rising order -/
  written : m.map Prod.fst = List.range nfree
  /-- node 0 is INTERNAL -/
  root : ∀ c ∈ m, c.1 = 0 → c.2.tag = .internal
  /-- an INTERNAL node holds no symbol (R31) -/
  internalSym : ∀ c ∈ m, c.2.tag = .internal → c.2.sym = 0
  /-- a LEAF has no children -/
  leafChildless : ∀ c ∈ m, c.2.tag = .leaf → c.2.c0 = 0 ∧ c.2.c1 = 0
  /-- a child is a later node below `nfree` (it was created after its parent, R124; so there is no cycle) -/
  childLater : ∀ c ∈ m, ∀ b : Bool, c.2.child b ≠ 0 → c.1 < (c.2.child b).toNat ∧ (c.2.child b).toNat < nfree
  /-- every node but the root is some node's child -/
  parentExists : ∀ i < nfree, 0 < i → ∃ c ∈ m, ∃ b : Bool, (c.2.child b).toNat = i
  /-- and of one node only, by one bit -/
  parentUnique : ∀ c ∈ m, ∀ d ∈ m, ∀ b b' : Bool, c.2.child b ≠ 0 → c.2.child b = d.2.child b' → c.1 = d.1 ∧ b = b'
  /-- (d): every node other than the root is a LEAF or has at least one child -/
  used : ∀ c ∈ m, 0 < c.1 → c.2.tag = .leaf ∨ c.2.c0 ≠ 0 ∨ c.2.c1 ≠ 0

/-- The invariant of the states that the unit can be in between commands: R36, with the register rules R22 to R29 and
R34 that R36 relies on. -/
structure Invariant (s : State) : Prop where
  /-- (a) -/
  errIffFault : s.err = none ↔ s.fsm ≠ .fault
  /-- IDLE: nothing has happened since reset or CLR (R21, R39) -/
  idle : s.fsm = .idle → s = clearAll s
  /-- (b), in PACK -/
  packing : s.fsm = .pack → s.nacc.toNat = s.bitcnt.toNat % 8 ∧ s.out.length = s.bitcnt.toNat / 8
  /-- (b), in DONE after PEND -/
  packed : s.fsm = .done → s.nfree = 0 → s.out.length = (s.bitcnt.toNat + 7) / 8
  /-- `acc[7:nacc]` is 0 (R23) -/
  accHigh : s.acc.toNat < 2 ^ s.nacc.toNat
  /-- no bits are pending outside a packing run -/
  flushed : s.fsm ≠ .pack → s.fsm ≠ .fault → s.nacc = 0 ∧ s.acc = 0
  /-- `bitcnt` is 0 in an operation that loaded a table (R24) -/
  noBitcnt : s.nfree ≠ 0 → s.bitcnt = 0
  /-- `rem` and `cur` are 0 outside a decode (R25, R26) -/
  noRem : s.fsm ≠ .decode → s.fsm ≠ .fault → s.rem = 0 ∧ s.cur = 0
  /-- a table load begins with the root (R27) -/
  loaded : s.fsm = .load ∨ s.fsm = .decode → s.nfree ≠ 0
  /-- a packing run has no table (R27) -/
  noTable : s.fsm = .pack → s.nfree = 0
  /-- (c), (d) -/
  tree : TreeOk s.mem s.nfree.toNat
  /-- (d): the LEAF nodes are counted by `nent` -/
  leaves : leafCount s.mem = s.nent.toNat
  /-- (d): and so are the marks of `seen` -/
  seenMarks : seenCount s.seen = s.nent.toNat
  /-- `seen[sym]` is 1 exactly when a LEAF holds the symbol (R29) -/
  seenLeaf : ∀ sym : Byte, s.seen.getLsbD sym.toNat = true ↔ ∃ c ∈ s.mem, c.2.tag = .leaf ∧ c.2.sym = sym
  /-- each entry created at most 255 nodes (R126) -/
  allocated : s.nfree.toNat ≤ 1 + 255 * s.nent.toNat
  /-- (e) -/
  cursor : s.fsm = .decode →
    (∃ c ∈ s.mem, c.1 = s.cur.toNat ∧ c.2.tag = .internal) ∧ (s.rem = 0 → s.cur = 0)
  /-- `cbuf` holds part of one command and no more (R34) -/
  framing : decode s.cbuf = .reject .incomplete

end Sys2Proof.Machine
end

