-- ==== Sys2Proof/Certificates/Slice0/Obligations.lean ====
section
/-! DEFINITION. The statements for the provers. Each docstring names the rules of spec/ it comes from; the prover's file
proves or refutes each. -/

open Sys2Proof Sys2Proof.Machine

/-! ### Reset, framing and the step -/

/-- R39: the values after hardware reset and after CLR: every register 0, `out` empty, every node word without a value,
and `cbuf` empty after hardware reset (CLR leaves it as it is, R34). -/
def Obligations.ResetAndClrLeaveTheResetValues : Prop :=
  (ResetValues State.reset ∧ State.reset.cbuf = []) ∧
  ∀ s, ∃ t, exec .clr s = .next t ∧ ResetValues t ∧ t.cbuf = s.cbuf

/-- R190, R203: hardware reset, accepted in any state, leaves the reset state and discards a partial command. (That
the bytes the host sends after the reset are still to come is the model's queue, log entry 1.) -/
def Obligations.HardwareResetLeavesTheResetState : Prop :=
  ∀ s later, s.inputs = .reset :: later → step s = .next { State.reset with inputs := later }

/-- R36: the invariant holds at reset. -/
def Obligations.InvariantHoldsAtReset : Prop := Invariant State.reset

/-- R36: every step keeps the invariant, from every state that has it. -/
def Obligations.StepKeepsInvariant : Prop :=
  ∀ s t, Invariant s → step s = .next t → Invariant t

/-- R36 (f), R69, R201: under the invariant no command reads an unspecified node word, so every command and every step
answers a next state. -/
def Obligations.EveryStepAnswersANextState : Prop :=
  ∀ s, Invariant s → SafeStep s ∧ ∀ i, ∃ t, exec i s = .next t

/-- R95: encoding and decoding agree for every well-formed command, whatever follows it in the stream. -/
def Obligations.DecodeOfEncodeIsTheCommand : Prop :=
  ∀ i : Instr, i.wf = true → ∀ rest, decode (encode i ++ rest) = .command i rest

/-- R95: what the decoder reads is well formed and its encoding is the bytes that were read. -/
def Obligations.EncodeOfDecodedIsTheBytes : Prop :=
  ∀ bs i rest, decode bs = .command i rest → i.wf = true ∧ encode i ++ rest = bs

/-- R80: a command takes `cmdlen` bytes, from 1 to 35. R91, R34: bytes are a partial command exactly while fewer have
arrived than `cmdlen` says or it cannot be told yet, and a partial command has at most 34 bytes. -/
def Obligations.CommandsTakeCmdlenBytes : Prop :=
  ∀ bs,
    (∀ i rest, decode bs = .command i rest →
      cmdlen bs = some (encode i).length ∧ 1 ≤ (encode i).length ∧ (encode i).length ≤ 35) ∧
    (decode bs = .reject .incomplete ↔ ∀ n, cmdlen bs = some n → bs.length < n) ∧
    (decode bs = .reject .incomplete → bs.length ≤ 34)

/-- R82, R85: words written out from the spec's encodings decode to their commands. -/
def Obligations.WordsDecodeToTheirCommands : Prop :=
  decode [0x00] = .command .nop [] ∧ decode [0x01] = .command .clr [] ∧ decode [0x10] = .command .pstart [] ∧
  decode [0x11, 0x09, 0xAA, 0x80] = .command (.pcode 9 [0xAA, 0x80]) [] ∧ decode [0x12] = .command .pend [] ∧
  decode [0x20] = .command .lstart [] ∧ decode [0x21, 0x62, 0x02, 0xC0] = .command (.lentry 0x62 2 [0xC0]) [] ∧
  decode [0x30, 0x01, 0x02, 0x03, 0x04] = .command (.dstart 0x01020304) [] ∧
  decode [0x31, 0x1F] = .command (.dbyte 0x1F) [] ∧ decode [0x32] = .command .dend [] ∧
  decode [0xFF] = .command (.illegal 0xFF) []

/-- R85: the code of a PCODE or LENTRY is `w[i] = B[i div 8][7 - (i mod 8)]` for i from 0 to L - 1, and the three
examples of the rule. -/
def Obligations.CodeBitsAreMostSignificantFirst : Prop :=
  (∀ (len : Byte) (code : List Byte), code.length = ceilBytes len →
    (codeBits len code).length = len.toNat ∧
    ∀ (i : Nat) (h : i / 8 < code.length), i < len.toNat →
      (codeBits len code)[i]? = some ((code[i / 8]'h).getLsbD (7 - i % 8))) ∧
  codeBits 1 [0x00] = [false] ∧ codeBits 2 [0xC0] = [true, true] ∧
  codeBits 9 [0xAA, 0x80] = [true, false, true, false, true, false, true, false, true]

/-- R70, R91: the byte that completes a command executes it, the command taken out of `cbuf`. (That bytes come from the
field `inputs`, one a step, is the model's, log entry 1.) -/
def Obligations.StepExecutesTheDecodedCommand : Prop :=
  ∀ s b later i, s.inputs = .byte b :: later → decode (s.cbuf ++ [b]) = .command i [] →
    step s = exec i { s with cbuf := [], inputs := later }

/-- R34, R91: a byte that completes no command only joins `cbuf`, and with no byte to accept the unit waits. (That a
step with nothing to accept answers the same state is the model's choice, log entry 4.) -/
def Obligations.PartialCommandHasNoEffect : Prop :=
  (∀ s b later, s.inputs = .byte b :: later → decode (s.cbuf ++ [b]) = .reject .incomplete →
    step s = .next { s with cbuf := s.cbuf ++ [b], inputs := later }) ∧
  ∀ s, s.inputs = [] → step s = .next s

/-- R70, R91, R95: the bytes of a well-formed command, sent at a command boundary, run exactly that command, in as many
steps as it has bytes (log entry 1). -/
def Obligations.CommandBytesRunTheCommand : Prop :=
  ∀ i s later, i.wf = true → s.cbuf = [] → s.inputs = (encode i).map HostInput.byte ++ later →
    runSteps (encode i).length s = exec i { s with inputs := later }

/-- R65: bits that the declared length excludes are ignored: those after the first L of a code, and those after the
first `min(8, rem)` of a payload byte. -/
def Obligations.ExcludedInputBitsAreIgnored : Prop :=
  (∀ (len : Byte) (code code' : List Byte),
    (∀ i < len.toNat, (code.getD (i / 8) 0).getLsbD (7 - i % 8) = (code'.getD (i / 8) 0).getLsbD (7 - i % 8)) →
      ∀ s, exec (.pcode len code) s = exec (.pcode len code') s ∧
        ∀ sym, exec (.lentry sym len code) s = exec (.lentry sym len code') s) ∧
  ∀ (s : State) (b b' : Byte), (∀ j < min 8 s.rem.toNat, b.getLsbD (7 - j) = b'.getLsbD (7 - j)) →
    exec (.dbyte b) s = exec (.dbyte b') s

/-- R61, R83: the operand of DSTART is the number `B1 * 2^24 + B2 * 2^16 + B3 * 2^8 + B4`, and every value is legal as
an encoding. -/
def Obligations.BitCountIsBigEndian : Prop :=
  ∀ (b1 b2 b3 b4 : Byte) (rest : List Byte), ∃ n : BitCount,
    decode (0x30 :: b1 :: b2 :: b3 :: b4 :: rest) = .command (.dstart n) rest ∧
    n.toNat = b1.toNat * 2 ^ 24 + b2.toNat * 2 ^ 16 + b3.toNat * 2 ^ 8 + b4.toNat

/-! ### Control and dispatch -/

/-- R112: NOP is the byte 0x00 and changes nothing, in any phase. -/
def Obligations.NopChangesNothing : Prop :=
  (∀ rest, decode (0x00 :: rest) = .command .nop rest) ∧ ∀ s, exec .nop s = .next s

/-- R113, R174: CLR is the byte 0x01; it completes in every phase, FAULT included, and leaves the reset state; only
`cbuf` and what the host has still to send are as before. -/
def Obligations.ClrCompletesInEveryPhase : Prop :=
  (∀ rest, decode (0x01 :: rest) = .command .clr rest) ∧
  ∀ s, exec .clr s = .next { State.reset with cbuf := s.cbuf, inputs := s.inputs }

/-- R88, R114: an opcode byte that R82 does not list is a one-byte command; it raises IllegalCommand, changing `fsm` and
`err` only, unless the unit is in FAULT, where it is ignored. -/
def Obligations.ReservedOpcodeRaisesIllegalCommand : Prop :=
  (∀ (op : Byte) (rest : List Byte), op ∉ [0x00, 0x01, 0x10, 0x11, 0x12, 0x20, 0x21, 0x30, 0x31, 0x32] →
    decode (op :: rest) = .command (.illegal op) rest) ∧
  ∀ op s, (s.fsm ≠ .fault → exec (.illegal op) s = .next { s with fsm := .fault, err := some .illegalCommand }) ∧
    (s.fsm = .fault → exec (.illegal op) s = .next s)

/-- R110 step 4, R111, R166: outside FAULT a command that R111 marks ILL in the phase raises IllegalCommand, before any
operand is examined, and changes `fsm` and `err` only. -/
def Obligations.OutOfPhaseCommandRaisesIllegalCommand : Prop :=
  ∀ i s, s.fsm ≠ .fault → MarkedIllegal i s.fsm →
    exec i s = .next { s with fsm := .fault, err := some .illegalCommand }

/-- R173: in FAULT no command but CLR, and no event but reset, changes anything but the bytes being framed. (The host's
queue and the step with no event are the model's, log entries 1 and 4.) -/
def Obligations.FaultIsSticky : Prop :=
  ∀ s, s.fsm = .fault →
    (∀ i, i ≠ .clr → exec i s = .next s) ∧
    (∀ b later, s.inputs = .byte b :: later → (∀ rest, decode (s.cbuf ++ [b]) ≠ .command .clr rest) →
      ∃ buf, step s = .next { s with cbuf := buf, inputs := later }) ∧
    (s.inputs = [] → step s = .next s)

/-- R115: the only changes of `fsm` a command can make. -/
def Obligations.PhaseChangesOnlyAsListed : Prop :=
  ∀ i s t, exec i s = .next t → t.fsm ≠ s.fsm →
    (i = .clr ∧ t.fsm = .idle) ∨
    (i = .pstart ∧ (s.fsm = .idle ∨ s.fsm = .done) ∧ t.fsm = .pack) ∨
    (i = .pend ∧ s.fsm = .pack ∧ t.fsm = .done) ∨
    (i = .lstart ∧ (s.fsm = .idle ∨ s.fsm = .done) ∧ t.fsm = .load) ∨
    ((∃ n, i = .dstart n) ∧ s.fsm = .load ∧ t.fsm = .decode) ∨
    (i = .dend ∧ s.fsm = .decode ∧ s.rem = 0 ∧ t.fsm = .done) ∨
    (s.fsm ≠ .fault ∧ t.fsm = .fault ∧ t.err ≠ none)

/-- R170, R171: a command that faults has written nothing but `fsm` and `err`, except that DBYTE keeps what it did to
`rem`, `cur` and `out` before the faulting bit. -/
def Obligations.FaultingCommandsWriteOnlyFsmAndErr : Prop :=
  ∀ i s t, Invariant s → s.fsm ≠ .fault → exec i s = .next t → t.fsm = .fault →
    ∃ k, t.err = some k ∧
      ((∀ b, i ≠ .dbyte b) → t = { s with fsm := .fault, err := some k }) ∧
      (∀ b, i = .dbyte b →
        t = { s with fsm := .fault, err := some k, rem := t.rem, cur := t.cur, out := t.out } ∧ s.out <+: t.out)

/-- R20 ("written by"), R40: the commands that can change each register, from `fsm` to `seen`, the node memory and
`out`; no command changes `cbuf` or what the host has still to send. (That CLR, PSTART and LSTART leave without a value
the node words of the operation before is how the model holds an unspecified word, log entry 2.) -/
def Obligations.EachRegisterIsWrittenOnlyByItsCommands : Prop :=
  ∀ i s t, exec i s = .next t →
    (t.fsm ≠ s.fsm → i = .clr ∨ i = .pstart ∨ i = .pend ∨ i = .lstart ∨ (∃ n, i = .dstart n) ∨ i = .dend ∨
      t.fsm = .fault) ∧
    (t.err ≠ s.err → i = .clr ∨ t.fsm = .fault) ∧
    ((t.acc ≠ s.acc ∨ t.nacc ≠ s.nacc) →
      i = .clr ∨ i = .pstart ∨ i = .lstart ∨ i = .pend ∨ ∃ len code, i = .pcode len code) ∧
    (t.bitcnt ≠ s.bitcnt → i = .clr ∨ i = .pstart ∨ i = .lstart ∨ ∃ len code, i = .pcode len code) ∧
    ((t.rem ≠ s.rem ∨ t.cur ≠ s.cur) →
      i = .clr ∨ i = .pstart ∨ i = .lstart ∨ (∃ n, i = .dstart n) ∨ ∃ b, i = .dbyte b) ∧
    ((t.nfree ≠ s.nfree ∨ t.nent ≠ s.nent ∨ t.seen ≠ s.seen ∨ t.mem ≠ s.mem) →
      i = .clr ∨ i = .pstart ∨ i = .lstart ∨ ∃ sym len code, i = .lentry sym len code) ∧
    (t.out ≠ s.out → i = .clr ∨ i = .pstart ∨ i = .lstart ∨ i = .pend ∨ (∃ len code, i = .pcode len code) ∨
      ∃ b, i = .dbyte b) ∧
    t.cbuf = s.cbuf ∧ t.inputs = s.inputs

/-- R74: `out` is appended to, and emptied only by PSTART, LSTART and CLR (and reset). -/
def Obligations.OutIsOnlyAppendedTo : Prop :=
  ∀ i s t, exec i s = .next t → i ≠ .pstart → i ≠ .lstart → i ≠ .clr → s.out <+: t.out

/-- The node memory keeps its canonical form (strictly rising indices inside the memory, R30, R68) under every command,
from every state that has it. (The form is the model's, log entry 2.) -/
def Obligations.NodeMemoryKeepsCanonicalForm : Prop :=
  ∀ i s t, Memory.wf s.mem → exec i s = .next t → Memory.wf t.mem

/-- R21, R22, R35, R160, R172, R176: the codes on the status outputs, `done`, `fault` and the result of an
operation. -/
def Obligations.StatusOutputsAndResult : Prop :=
  ∀ s : State,
    (s.fsm = .idle → s.fsmCode = 0) ∧ (s.fsm = .pack → s.fsmCode = 1) ∧ (s.fsm = .load → s.fsmCode = 2) ∧
    (s.fsm = .decode → s.fsmCode = 3) ∧ (s.fsm = .done → s.fsmCode = 4) ∧ (s.fsm = .fault → s.fsmCode = 7) ∧
    (s.err = none → s.errCode = 0) ∧ (s.err = some .emptyAlphabet → s.errCode = 1) ∧
    (s.err = some .malformedCodeTable → s.errCode = 2) ∧ (s.err = some .truncatedPayload → s.errCode = 3) ∧
    (s.err = some .corruptContainer → s.errCode = 4) ∧ (s.err = some .bitCountOverflow → s.errCode = 5) ∧
    (s.err = some .illegalCommand → s.errCode = 6) ∧
    (s.done = true ↔ s.fsm = .done) ∧ (s.fault = true ↔ s.fsm = .fault) ∧
    (s.over = true ↔ s.fsm = .done ∨ s.fsm = .fault) ∧
    (s.fsm = .done → s.result = .ok s.out s.bitcnt) ∧ (s.fsm = .fault → s.result = .fail s.errCode) ∧
    (s.fsm ≠ .done → s.fsm ≠ .fault → s.result = .notOver)

/-- R38, R202: nothing carries over from one operation to the next: after PSTART, and after LSTART, two units that
could start it are in one state, whatever they did before. -/
def Obligations.NothingCarriesOverBetweenOperations : Prop :=
  ∀ (i : Instr) (s s' : State), (i = .pstart ∨ i = .lstart) → Invariant s → Invariant s' → (s.fsm = .idle ∨ s.fsm = .done) →
    (s'.fsm = .idle ∨ s'.fsm = .done) → s.cbuf = s'.cbuf → s.inputs = s'.inputs → exec i s = exec i s'

/-! ### Packer -/

/-- R131: PSTART is the byte 0x10; it completes in IDLE and DONE: everything but `err` and the bytes being framed is
cleared and the phase is PACK; in PACK, LOAD and DECODE it raises IllegalCommand. (`mem := []`: no node word of the
new operation has been written, so none has a value, R39, U1; that the model drops the earlier words is its way to
say so, log entry 2.) -/
def Obligations.PstartOpensARun : Prop :=
  (∀ rest, decode (0x10 :: rest) = .command .pstart rest) ∧
  ∀ s, ((s.fsm = .idle ∨ s.fsm = .done) → exec .pstart s = .next { s with
      fsm := .pack, acc := 0, nacc := 0, bitcnt := 0, rem := 0, cur := 0, nfree := 0, nent := 0, seen := 0, mem := []
      out := [] }) ∧
    ((s.fsm = .pack ∨ s.fsm = .load ∨ s.fsm = .decode) →
      exec .pstart s = .next { s with fsm := .fault, err := some .illegalCommand })

/-- R132, R134: in PACK, a PCODE with L from 1 to 255 whose bits fit the count completes: its L bits are appended in
order to the bits packed so far, `bitcnt` counts them, `nacc` counts modulo 8, emitted bytes stand, and nothing else
changes. -/
def Obligations.PcodeAppendsTheCode : Prop :=
  ∀ (len : Byte) (code : List Byte) (s : State), s.fsm = .pack → len ≠ 0 → s.bitcnt.toNat + len.toNat ≤ 2 ^ 32 - 1 →
    ∃ t, exec (.pcode len code) s = .next t ∧
      packedBits t = packedBits s ++ codeBits len code ∧
      t.bitcnt.toNat = s.bitcnt.toNat + len.toNat ∧
      t.nacc.toNat = (s.nacc.toNat + len.toNat) % 8 ∧
      (s.acc.toNat < 2 ^ s.nacc.toNat → t.acc.toNat < 2 ^ t.nacc.toNat) ∧
      s.out <+: t.out ∧
      t = { s with acc := t.acc, nacc := t.nacc, bitcnt := t.bitcnt, out := t.out }

/-- R132, R165, R169: in PACK, a PCODE with L = 0 raises CorruptContainer; with L from 1 to 255 and a sum above
2^32 - 1 it raises BitCountOverflow; either changes nothing but `fsm` and `err`. -/
def Obligations.PcodeChecksLengthThenOverflow : Prop :=
  ∀ (len : Byte) (code : List Byte) (s : State), s.fsm = .pack →
    (len = 0 → exec (.pcode len code) s = .next { s with fsm := .fault, err := some .corruptContainer }) ∧
    (len ≠ 0 → s.bitcnt.toNat + len.toNat > 2 ^ 32 - 1 →
      exec (.pcode len code) s = .next { s with fsm := .fault, err := some .bitCountOverflow })

/-- R133: PEND is the byte 0x12. In PACK it completes: pending bits are flushed as one byte, first bit highest and
zeros below, and with none pending nothing is emitted; the phase is DONE, `acc` and `nacc` are 0 when bits were
flushed, `bitcnt` and everything else are left. In IDLE, LOAD, DECODE and DONE it raises IllegalCommand. -/
def Obligations.PendFlushesThePendingBits : Prop :=
  (∀ rest, decode (0x12 :: rest) = .command .pend rest) ∧
  ∀ s, (s.fsm = .pack → s.nacc = 0 → exec .pend s = .next { s with fsm := .done }) ∧
    (s.fsm = .pack → s.nacc ≠ 0 → ∃ x : Byte,
      exec .pend s = .next { s with fsm := .done, acc := 0, nacc := 0, out := s.out ++ [x] } ∧
      byteBits x = pendingBits s ++ List.replicate (8 - s.nacc.toNat) false) ∧
    (s.fsm ≠ .pack → s.fsm ≠ .fault → exec .pend s = .next { s with fsm := .fault, err := some .illegalCommand })

/-- R134, R136: a packing run of codes of lengths 1 to 255 whose total N fits the count, from IDLE or DONE. Before PEND
the unit is in PACK with the first `N div 8` bytes of the codes one after another in `out` and the other `N mod 8`
bits pending. After PEND it is in DONE with `bitcnt = N`, `ceil(N/8)` bytes in `out`, their bits the codes one after
another and zeros to the end of the last byte. -/
def Obligations.PackingRunConcatenatesTheCodes : Prop :=
  ∀ (s : State) (codes : List Entry), (s.fsm = .idle ∨ s.fsm = .done) → (∀ e ∈ codes, e.len ≠ 0) →
    (codes.flatMap Entry.bits).length ≤ 2 ^ 32 - 1 →
    (∃ t, execAll (.pstart :: codes.map Entry.pack) s = .next t ∧ t.fsm = .pack ∧
      t.bitcnt.toNat = (codes.flatMap Entry.bits).length ∧
      t.out.length = (codes.flatMap Entry.bits).length / 8 ∧ t.nacc.toNat = (codes.flatMap Entry.bits).length % 8 ∧
      t.out.flatMap byteBits ++ pendingBits t = codes.flatMap Entry.bits) ∧
    ∃ t, execAll (.pstart :: (codes.map Entry.pack ++ [.pend])) s = .next t ∧ t.fsm = .done ∧
      t.bitcnt.toNat = (codes.flatMap Entry.bits).length ∧
      t.out.length = ((codes.flatMap Entry.bits).length + 7) / 8 ∧
      ∃ pad, t.out.flatMap byteBits = codes.flatMap Entry.bits ++ List.replicate pad false

/-! ### Table load -/

/-- R121: LSTART is the byte 0x20; it completes in IDLE and DONE: everything but `err` and the bytes being framed is
cleared, node 0 is the empty root, `nfree` is 1 and the phase is LOAD; in PACK, LOAD and DECODE it raises
IllegalCommand. (`mem` lists node 0 only: no other node word of the new operation has been written, so none has a
value, R39, U1; that the model drops the earlier words is its way to say so, log entry 2.) -/
def Obligations.LstartOpensALoad : Prop :=
  (∀ rest, decode (0x20 :: rest) = .command .lstart rest) ∧
  ∀ s, ((s.fsm = .idle ∨ s.fsm = .done) → exec .lstart s = .next { s with
      fsm := .load, acc := 0, nacc := 0, bitcnt := 0, rem := 0, cur := 0, nfree := 1, nent := 0, seen := 0
      mem := [(0, { tag := .internal, sym := 0, c0 := 0, c1 := 0 })], out := [] }) ∧
    ((s.fsm = .pack ∨ s.fsm = .load ∨ s.fsm = .decode) →
      exec .lstart s = .next { s with fsm := .fault, err := some .illegalCommand })

/-- R122: in LOAD a LENTRY with L = 0 raises CorruptContainer and writes nothing else, the symbol repeated or not. -/
def Obligations.LentryZeroLengthIsCorrupt : Prop :=
  ∀ (sym : Byte) (code : List Byte) (s : State), s.fsm = .load →
    exec (.lentry sym 0 code) s = .next { s with fsm := .fault, err := some .corruptContainer }

/-- R123: in LOAD a LENTRY with L from 1 to 255 whose symbol already has an entry raises MalformedCodeTable and writes
nothing else. -/
def Obligations.LentryRepeatedSymbolIsMalformed : Prop :=
  ∀ (sym len : Byte) (code : List Byte) (s : State), s.fsm = .load → len ≠ 0 → s.seen.getLsbD sym.toNat = true →
    exec (.lentry sym len code) s = .next { s with fsm := .fault, err := some .malformedCodeTable }

/-- R124, R37: in LOAD a LENTRY with L from 1 to 255, a new symbol and a code in no conflict with the table completes:
the denoted table gains exactly this entry, `nent` and `seen` count it, and nothing else changes. In the node memory
one earlier word changes, the one where the code's path leaves the tree (computed by `divergence`), and in it one child
field, which links the first new node; one node is created for each bit from there on, with the words of `newNodes`. -/
def Obligations.LentryAddsTheEntry : Prop :=
  ∀ (sym len : Byte) (code : List Byte) (s : State), Invariant s → s.fsm = .load → len ≠ 0 →
    s.seen.getLsbD sym.toNat = false → ¬ Conflicts s.mem (codeBits len code) →
    ∃ t, exec (.lentry sym len code) s = .next t ∧
      (∀ v, tableLookup t.mem v = if v = codeBits len code then some sym else tableLookup s.mem v) ∧
      t.nent.toNat = s.nent.toNat + 1 ∧
      (∀ y : Byte, t.seen.getLsbD y.toNat = (decide (y = sym) || s.seen.getLsbD y.toNat)) ∧
      t = { s with nfree := t.nfree, nent := t.nent, seen := t.seen, mem := t.mem } ∧
      ∃ d b rest n, divergence s.mem 0 (codeBits len code) = (d, b :: rest) ∧
        memRead s.mem d.toNat = some n ∧ memRead t.mem d.toNat = some (n.setChild b s.nfree) ∧
        t.nfree.toNat = s.nfree.toNat + (b :: rest).length ∧
        (∀ j < (b :: rest).length, memRead t.mem (s.nfree.toNat + j) = (newNodes sym s.nfree rest)[j]?) ∧
        ∀ i, i < s.nfree.toNat ∨ t.nfree.toNat ≤ i → i ≠ d.toNat → memRead t.mem i = memRead s.mem i

/-- R124, R125: in LOAD, for a LENTRY with L from 1 to 255 and a new symbol, the path checks raise MalformedCodeTable
exactly when the code equals an earlier code or is a prefix of one or has one as a prefix, and then nothing but
`fsm` and `err` has been written. -/
def Obligations.LentryConflictIsMalformed : Prop :=
  ∀ (sym len : Byte) (code : List Byte) (s : State), Invariant s → s.fsm = .load → len ≠ 0 →
    s.seen.getLsbD sym.toNat = false →
    (exec (.lentry sym len code) s = .next { s with fsm := .fault, err := some .malformedCodeTable } ↔
      Conflicts s.mem (codeBits len code))

/-- R126, R28: the node memory cannot fill up, and at most 256 entries are loaded. -/
def Obligations.NodeMemoryCannotFillUp : Prop :=
  ∀ s, Invariant s → s.nent.toNat ≤ 256 ∧ s.nfree.toNat ≤ 65281 ∧
    (s.fsm = .load ∨ s.fsm = .decode → 1 ≤ s.nfree.toNat)

/-- R14, R127: loading a valid table, in any order, succeeds, and the denoted table is exactly its entries. -/
def Obligations.LoadingAValidTableDenotesIt : Prop :=
  ∀ (s : State) (table : List Entry), Invariant s → (s.fsm = .idle ∨ s.fsm = .done) → ValidTable table →
    ∃ t, execAll (.lstart :: table.map Entry.load) s = .next t ∧ Invariant t ∧ t.fsm = .load ∧
      t.nent.toNat = table.length ∧ t.out = [] ∧
      ∀ v sym, tableLookup t.mem v = some sym ↔ ∃ e ∈ table, e.bits = v ∧ e.sym = sym

/-! ### Unpack and walk -/

/-- R141, R161: in LOAD, DSTART completes when an entry is loaded or N = 0: `rem` is N, `cur` the root, the phase
DECODE; otherwise it raises EmptyAlphabet and changes nothing else. -/
def Obligations.DstartDeclaresThePayload : Prop :=
  ∀ (n : BitCount) (s : State), s.fsm = .load →
    ((s.nent ≠ 0 ∨ n = 0) → exec (.dstart n) s = .next { s with fsm := .decode, rem := n, cur := 0 }) ∧
    (s.nent = 0 → n ≠ 0 → exec (.dstart n) s = .next { s with fsm := .fault, err := some .emptyAlphabet })

/-- R142, R144, R145, R148: in DECODE with `rem` not 0, let `u` be the path to the cursor and let `u` followed by the
`min(8, rem)` payload bits of the byte parse along the denoted table. If bits are left to come or the parse ends at
the root, DBYTE completes: the parse's symbols are emitted in order, the cursor is where the parse ends, `rem` has
counted the bits, and nothing else changes, the node memory included. -/
def Obligations.DbyteWalksThePayload : Prop :=
  ∀ (b : Byte) (s : State) (u : BitString) (syms : List Byte) (i : NodeIndex), Invariant s → s.fsm = .decode → s.rem ≠ 0 →
    follow s.mem 0 u = some s.cur →
    Parses s.mem (u ++ (List.range (min 8 s.rem.toNat)).map fun j => b.getLsbD (7 - j)) syms i →
    (8 < s.rem.toNat ∨ i = 0) →
    exec (.dbyte b) s = .next { s with
      rem := BitVec.ofNat 32 (s.rem.toNat - 8), cur := i, out := s.out ++ syms }

/-- R146: as above, but the byte's bits are the last ones and the parse does not end at the root: CorruptContainer, the
bits consumed and the symbols before the leftover path emitted. -/
def Obligations.DbyteLeftoverPathIsCorrupt : Prop :=
  ∀ (b : Byte) (s : State) (u : BitString) (syms : List Byte) (i : NodeIndex), Invariant s → s.fsm = .decode → s.rem ≠ 0 →
    follow s.mem 0 u = some s.cur →
    Parses s.mem (u ++ (List.range (min 8 s.rem.toNat)).map fun j => b.getLsbD (7 - j)) syms i →
    s.rem.toNat ≤ 8 → i ≠ 0 →
    exec (.dbyte b) s = .next { s with
      fsm := .fault, err := some .corruptContainer, rem := 0, cur := i, out := s.out ++ syms }

/-- R149: the walk meets a missing child at a payload bit: CorruptContainer; the bits before it are consumed and their
symbols emitted, and `rem` counts the faulting bit as well. -/
def Obligations.DbyteMissingChildIsCorrupt : Prop :=
  ∀ (b : Byte) (s : State) (u v rest : BitString) (bit : Bool) (syms : List Byte) (i : NodeIndex) (n : NodeWord),
    Invariant s → s.fsm = .decode → s.rem ≠ 0 → follow s.mem 0 u = some s.cur →
    ((List.range (min 8 s.rem.toNat)).map fun j => b.getLsbD (7 - j)) = v ++ bit :: rest →
    Parses s.mem (u ++ v) syms i → memRead s.mem i.toNat = some n → n.child bit = 0 →
    exec (.dbyte b) s = .next { s with
      fsm := .fault, err := some .corruptContainer, rem := BitVec.ofNat 32 (s.rem.toNat - (v.length + 1)), cur := i
      out := s.out ++ syms }

/-- R148: the cases of the three statements before are all there are: under the invariant the cursor is on a path from
the root, and from there the bits parse or meet a missing child. -/
def Obligations.EveryPayloadParsesOrMissesAChild : Prop :=
  ∀ (s : State) (bits : BitString), Invariant s → s.fsm = .decode →
    ∃ u, follow s.mem 0 u = some s.cur ∧
      ((∃ syms i, Parses s.mem (u ++ bits) syms i) ∨
        ∃ v bit rest syms i n, bits = v ++ bit :: rest ∧ Parses s.mem (u ++ v) syms i ∧
          memRead s.mem i.toNat = some n ∧ n.child bit = 0)

/-- R147, first sentence: in DECODE with `rem` 0 a DBYTE raises CorruptContainer and consumes nothing; second sentence:
with `rem` not 0 a DEND raises TruncatedPayload. -/
def Obligations.TooManyOrTooFewBytes : Prop :=
  ∀ s, s.fsm = .decode →
    (s.rem = 0 → ∀ b, exec (.dbyte b) s = .next { s with fsm := .fault, err := some .corruptContainer }) ∧
    (s.rem ≠ 0 → exec .dend s = .next { s with fsm := .fault, err := some .truncatedPayload })

/-- R143: DEND is the byte 0x32. In DECODE with `rem` 0 it completes: the phase is DONE and nothing else changes; with
`rem` not 0 it raises TruncatedPayload. In IDLE, PACK, LOAD and DONE it raises IllegalCommand. -/
def Obligations.DendEndsTheDecode : Prop :=
  (∀ rest, decode (0x32 :: rest) = .command .dend rest) ∧
  ∀ s, (s.fsm = .decode → s.rem = 0 → exec .dend s = .next { s with fsm := .done }) ∧
    (s.fsm = .decode → s.rem ≠ 0 → exec .dend s = .next { s with fsm := .fault, err := some .truncatedPayload }) ∧
    (s.fsm ≠ .decode → s.fsm ≠ .fault → exec .dend s = .next { s with fsm := .fault, err := some .illegalCommand })

/-- R148: with a loaded table, DSTART N, `ceil(N/8)` payload bytes whose first N bits split into codes of the table, and
DEND end in DONE with the symbols of those codes appended to `out`. -/
def Obligations.DecodingRunRecoversTheSymbols : Prop :=
  ∀ (s : State) (n : BitCount) (bytes syms : List Byte), Invariant s → s.fsm = .load →
    bytes.length = (n.toNat + 7) / 8 → Parses s.mem ((bytes.flatMap byteBits).take n.toNat) syms 0 →
    ∃ t, execAll (.dstart n :: (bytes.map Instr.dbyte ++ [.dend])) s = .next t ∧ Invariant t ∧ t.fsm = .done ∧
      t.out = s.out ++ syms

/-- R13: the round trip. Packing the codes of a message over a valid table gives a payload and a bit count; loading the
table (in any order) and decoding that payload with that count gives the message back, provided the count fits. -/
def Obligations.DecodingThePackedMessageGivesItBack : Prop :=
  ∀ (s : State) (table loaded message : List Entry), Invariant s → (s.fsm = .idle ∨ s.fsm = .done) → ValidTable table →
    loaded.Perm table → (∀ e ∈ message, e ∈ table) → (message.flatMap Entry.bits).length ≤ 2 ^ 32 - 1 →
    ∃ t, execAll (.pstart :: (message.map Entry.pack ++ [.pend])) s = .next t ∧ t.result = .ok t.out t.bitcnt ∧
      ∃ t', execAll (.lstart :: (loaded.map Entry.load ++ .dstart t.bitcnt :: (t.out.map Instr.dbyte ++ [.dend]))) t =
          .next t' ∧ t'.result = .ok (message.map Entry.sym) 0
end

