-- ==== Sys2Proof/Laws/Memory.lean ====
section
/-! SUPPORT. The laws of the node memory: reads after writes, the canonical form, and what a write does to the keys
and to counts. -/

namespace Sys2Proof.Machine

theorem memRead_memWrite_same (m : Memory) (i : Nat) (n : NodeWord) : memRead (memWrite m i n) i = some n := by
  induction m with
  | nil => simp [memWrite, memRead]
  | cons c m ih =>
    obtain ⟨a, v⟩ := c
    simp only [memWrite]
    split
    · simp [memRead]
    · split
      · simp [memRead]
      · rename_i h1 h2
        simp [memRead, ih, Ne.symm h2]

theorem memRead_memWrite_ne (m : Memory) {i j : Nat} (n : NodeWord) (h : j ≠ i) :
    memRead (memWrite m i n) j = memRead m j := by
  induction m with
  | nil => simp [memWrite, memRead, Ne.symm h]
  | cons c m ih =>
    obtain ⟨a, v⟩ := c
    simp only [memWrite]
    split
    · simp [memRead, Ne.symm h]
    · split
      · rename_i h2
        subst h2
        simp [memRead, Ne.symm h]
      · simp only [memRead, ih]

/-- A read after a write. -/
theorem memRead_memWrite (m : Memory) (i j : Nat) (n : NodeWord) :
    memRead (memWrite m i n) j = if j = i then some n else memRead m j := by
  split
  · rename_i h
    subst h
    exact memRead_memWrite_same m j n
  · exact memRead_memWrite_ne m n ‹_›

theorem mem_keys_memWrite (m : Memory) (i k : Nat) (n : NodeWord) :
    k ∈ (memWrite m i n).map Prod.fst ↔ k = i ∨ k ∈ m.map Prod.fst := by
  induction m with
  | nil => simp [memWrite]
  | cons c m ih =>
    obtain ⟨a, v⟩ := c
    simp only [memWrite]
    split
    · simp
    · split
      · rename_i h2
        subst h2
        simp
      · simp only [List.map_cons, List.mem_cons, ih]
        tauto

theorem memWrite_sorted (m : Memory) (i : Nat) (n : NodeWord) (h : (m.map Prod.fst).Pairwise (· < ·)) :
    ((memWrite m i n).map Prod.fst).Pairwise (· < ·) := by
  induction m with
  | nil => simp [memWrite]
  | cons c m ih =>
    obtain ⟨a, v⟩ := c
    simp only [List.map_cons, List.pairwise_cons] at h
    simp only [memWrite]
    split
    · rename_i h1
      simp only [List.map_cons, List.pairwise_cons]
      refine ⟨?_, h⟩
      intro k hk
      rcases List.mem_cons.1 hk with rfl | hk
      · exact h1
      · exact Nat.lt_trans h1 (h.1 k hk)
    · split
      · rename_i h2
        subst h2
        simpa only [List.map_cons, List.pairwise_cons] using h
      · rename_i h1 h2
        simp only [List.map_cons, List.pairwise_cons]
        refine ⟨?_, ih h.2⟩
        intro k hk
        rcases (mem_keys_memWrite m i k n).1 hk with rfl | hk
        · omega
        · exact h.1 k hk

/-- Every memory operation keeps the canonical form: the only one that changes memory is the write. -/
theorem memWrite_wf (m : Memory) (i : Nat) (n : NodeWord) (hi : i < Config.nodes) (h : Memory.wf m) :
    Memory.wf (memWrite m i n) := by
  refine ⟨memWrite_sorted m i n h.1, ?_⟩
  intro k hk
  rcases (mem_keys_memWrite m i k n).1 hk with rfl | hk
  · exact hi
  · exact h.2 k hk

theorem writeNode_wf (i : NodeIndex) (n : NodeWord) (s : State) (h : Memory.wf s.mem) :
    Memory.wf (writeNode i n s).mem :=
  memWrite_wf s.mem i.toNat n (by have := i.isLt; simpa [Config.nodes] using this) h

theorem memRead_isSome_iff (m : Memory) (i : Nat) : (memRead m i).isSome ↔ i ∈ m.map Prod.fst := by
  induction m with
  | nil => simp [memRead]
  | cons c m ih =>
    obtain ⟨a, v⟩ := c
    simp only [memRead, List.map_cons, List.mem_cons]
    split
    · rename_i h
      simp [h]
    · rename_i h
      rw [ih]
      constructor
      · exact Or.inr
      · rintro (rfl | h')
        · exact absurd rfl h
        · exact h'

/-- A listed word is what its index reads as. -/
theorem mem_iff_memRead {m : Memory} (h : (m.map Prod.fst).Pairwise (· < ·)) (i : Nat) (n : NodeWord) :
    (i, n) ∈ m ↔ memRead m i = some n := by
  induction m with
  | nil => simp [memRead]
  | cons c m ih =>
    obtain ⟨a, v⟩ := c
    simp only [List.map_cons, List.pairwise_cons] at h
    simp only [memRead, List.mem_cons, Prod.mk.injEq]
    split
    · rename_i ha
      subst ha
      have hn : (a, n) ∉ m := fun hm => Nat.lt_irrefl a (h.1 a (List.mem_map.2 ⟨(a, n), hm, rfl⟩))
      simp [hn, eq_comm]
    · rename_i ha
      rw [ih h.2]
      constructor
      · rintro (⟨rfl, _⟩ | h')
        · exact absurd rfl ha
        · exact h'
      · exact Or.inr

/-- Writing above every listed index appends. -/
theorem memWrite_append {m : Memory} {i : Nat} (n : NodeWord) (h : ∀ k ∈ m.map Prod.fst, k < i) :
    memWrite m i n = m ++ [(i, n)] := by
  induction m with
  | nil => simp [memWrite]
  | cons c m ih =>
    obtain ⟨a, v⟩ := c
    have ha : a < i := h a (by simp)
    simp only [memWrite]
    rw [if_neg (by omega), if_neg (by omega), ih (fun k hk => h k (by simp at hk ⊢; exact Or.inr hk))]
    rfl

/-- Writing a listed index keeps the keys. -/
theorem keys_memWrite_listed {m : Memory} {i : Nat} (n : NodeWord) (hs : (m.map Prod.fst).Pairwise (· < ·))
    (h : i ∈ m.map Prod.fst) : (memWrite m i n).map Prod.fst = m.map Prod.fst := by
  induction m with
  | nil => simp at h
  | cons c m ih =>
    obtain ⟨a, v⟩ := c
    simp only [List.map_cons, List.pairwise_cons] at hs
    simp only [List.map_cons, List.mem_cons] at h
    simp only [memWrite]
    rcases h with rfl | h
    · simp
    · have := hs.1 i h
      rw [if_neg (by omega), if_neg (by omega)]
      simp [ih hs.2 h]

/-- Writing a listed index replaces its word in a count. -/
theorem countP_memWrite_listed {m : Memory} {i : Nat} {old : NodeWord} (n : NodeWord) (q : Nat × NodeWord → Bool)
    (hs : (m.map Prod.fst).Pairwise (· < ·)) (h : memRead m i = some old) :
    (memWrite m i n).countP q + (if q (i, old) then 1 else 0) = m.countP q + (if q (i, n) then 1 else 0) := by
  induction m with
  | nil => simp [memRead] at h
  | cons c m ih =>
    obtain ⟨a, v⟩ := c
    simp only [List.map_cons, List.pairwise_cons] at hs
    simp only [memRead] at h
    simp only [memWrite]
    split at h
    · rename_i ha
      subst ha
      cases h
      simp only [Nat.lt_irrefl, if_false, if_true, List.countP_cons]
      omega
    · rename_i ha
      have hm : i ∈ m.map Prod.fst := (memRead_isSome_iff m i).1 (by simp [h])
      have := hs.1 i hm
      rw [if_neg (by omega), if_neg (by omega)]
      have := ih hs.2 h
      simp only [List.countP_cons]
      omega

end Sys2Proof.Machine
end

