-- ==== Sys2Proof/Laws/Counts.lean ====
section
/-! SUPPORT. Counting the symbols marked in `seen` (10_state.md R28, R29, R36 (d)). -/

namespace Sys2Proof.Machine

theorem countP_range_mark (f : Nat → Bool) (k n : Nat) (hk : k < n) (h0 : f k = false) :
    (List.range n).countP (fun j => f j || decide (j = k)) = (List.range n).countP f + 1 := by
  induction n with
  | zero => omega
  | succ n ih =>
    rw [List.range_succ, List.countP_append, List.countP_append, List.countP_singleton, List.countP_singleton]
    by_cases hkn : k = n
    · subst hkn
      have : (List.range k).countP (fun j => f j || decide (j = k)) = (List.range k).countP f := by
        apply List.countP_congr
        intro j hj
        have := List.mem_range.1 hj
        have hne : j ≠ k := by omega
        simp [hne]
      rw [this]
      simp [h0]
    · rw [ih (by omega)]
      have : ¬ n = k := by omega
      simp [this]
      omega

theorem getLsbD_mark (seen : BitVec 256) (sym : Byte) (k : Nat) :
    (seen ||| BitVec.twoPow 256 sym.toNat).getLsbD k = (seen.getLsbD k || decide (k = sym.toNat)) := by
  have := sym.isLt
  rw [BitVec.getLsbD_or, BitVec.getLsbD_twoPow]
  congr 1
  by_cases h : k = sym.toNat
  · simp [h]
    omega
  · simp [h, Ne.symm h]

/-- Marking a new symbol counts one more. -/
theorem seenCount_mark {seen : BitVec 256} {sym : Byte} (h : seen.getLsbD sym.toNat = false) :
    seenCount (seen ||| BitVec.twoPow 256 sym.toNat) = seenCount seen + 1 := by
  unfold seenCount
  simp only [getLsbD_mark]
  exact countP_range_mark (fun k => seen.getLsbD k) sym.toNat 256 sym.isLt h

theorem seenCount_zero : seenCount 0 = 0 := by simp [seenCount]

theorem seenCount_le (seen : BitVec 256) : seenCount seen ≤ 256 := by
  unfold seenCount
  exact (List.countP_le_length).trans (by simp)

/-- A symbol not yet marked leaves room for one more. -/
theorem seenCount_lt {seen : BitVec 256} {sym : Byte} (h : seen.getLsbD sym.toNat = false) : seenCount seen < 256 := by
  have h1 := seenCount_mark h
  have h2 := seenCount_le (seen ||| BitVec.twoPow 256 sym.toNat)
  omega

end Sys2Proof.Machine
end

