-- ==== Sys2Proof/Laws/Decode.lean ====
section
/-! SUPPORT. The laws of framing: what the decoder can answer, and how it grows byte by byte
(30_encoding.md R80, R91, R95). -/

namespace Sys2Proof

theorem ceilBytes_le (len : Byte) : ceilBytes len ≤ 32 := by
  have := len.isLt
  unfold ceilBytes
  omega

/-- A reserved opcode is exactly one that is none of the ten of R82. -/
theorem reservedOpcode_iff (op : Byte) :
    reservedOpcode op = true ↔
      op ≠ 0x00 ∧ op ≠ 0x01 ∧ op ≠ 0x10 ∧ op ≠ 0x11 ∧ op ≠ 0x12 ∧ op ≠ 0x20 ∧ op ≠ 0x21 ∧ op ≠ 0x30 ∧ op ≠ 0x31 ∧
        op ≠ 0x32 := by
  revert op
  decide

theorem decodePcode_code (len : Byte) (code rest : List Byte) (h : code.length = ceilBytes len) :
    decodePcode (len :: (code ++ rest)) = .command (.pcode len code) rest := by
  simp [decodePcode, ← h]

theorem decodeLentry_code (sym len : Byte) (code rest : List Byte) (h : code.length = ceilBytes len) :
    decodeLentry (sym :: len :: (code ++ rest)) = .command (.lentry sym len code) rest := by
  simp [decodeLentry, ← h]

theorem toNat_append_byte {w : Nat} (x : BitVec w) (y : Byte) : (x ++ y).toNat = x.toNat * 256 + y.toNat := by
  rw [BitVec.toNat_append, ← Nat.shiftLeft_add_eq_or_of_lt y.isLt, Nat.shiftLeft_eq]

/-- R61: `N = B1 * 2^24 + B2 * 2^16 + B3 * 2^8 + B4`. -/
theorem bigEndian32_toNat (b1 b2 b3 b4 : Byte) : (bigEndian32 b1 b2 b3 b4).toNat =
    b1.toNat * 2 ^ 24 + b2.toNat * 2 ^ 16 + b3.toNat * 2 ^ 8 + b4.toNat := by
  rw [bigEndian32, toNat_append_byte, toNat_append_byte, toNat_append_byte]
  omega

/-- The four bytes of a bit count, most significant first, give it back. -/
theorem bigEndian32_bytes (n : BitCount) :
    bigEndian32 (n.extractLsb' 24 8) (n.extractLsb' 16 8) (n.extractLsb' 8 8) (n.extractLsb' 0 8) = n := by
  apply BitVec.eq_of_toNat_eq
  have := n.isLt
  simp only [bigEndian32_toNat, BitVec.extractLsb'_toNat, Nat.shiftRight_eq_div_pow]
  omega

theorem bytes_bigEndian32 (b1 b2 b3 b4 : Byte) :
    (bigEndian32 b1 b2 b3 b4).extractLsb' 24 8 = b1 ∧ (bigEndian32 b1 b2 b3 b4).extractLsb' 16 8 = b2 ∧
      (bigEndian32 b1 b2 b3 b4).extractLsb' 8 8 = b3 ∧ (bigEndian32 b1 b2 b3 b4).extractLsb' 0 8 = b4 := by
  have h1 := b1.isLt
  have h2 := b2.isLt
  have h3 := b3.isLt
  have h4 := b4.isLt
  refine ⟨?_, ?_, ?_, ?_⟩ <;>
  · apply BitVec.eq_of_toNat_eq
    simp only [bigEndian32_toNat, BitVec.extractLsb'_toNat, Nat.shiftRight_eq_div_pow]
    omega

/-- While a command is incomplete it has one of the four opcodes with operands (R81). -/
theorem decode_incomplete_cases {bs : List Byte} (h : decode bs = .reject .incomplete) :
    bs = [] ∨ ∃ tl, (bs = 0x11 :: tl ∧ decodePcode tl = .reject .incomplete) ∨
      (bs = 0x21 :: tl ∧ decodeLentry tl = .reject .incomplete) ∨
      (bs = 0x30 :: tl ∧ decodeDstart tl = .reject .incomplete) ∨
      (bs = 0x31 :: tl ∧ decodeDbyte tl = .reject .incomplete) := by
  cases bs with
  | nil => exact Or.inl rfl
  | cons op tl =>
    refine Or.inr ⟨tl, ?_⟩
    simp only [decode] at h
    split at h; · cases h
    split at h; · cases h
    split at h; · cases h
    split at h
    · subst_vars; exact Or.inl ⟨rfl, h⟩
    split at h; · cases h
    split at h; · cases h
    split at h
    · subst_vars; exact Or.inr (Or.inl ⟨rfl, h⟩)
    split at h
    · subst_vars; exact Or.inr (Or.inr (Or.inl ⟨rfl, h⟩))
    split at h
    · subst_vars; exact Or.inr (Or.inr (Or.inr ⟨rfl, h⟩))
    split at h <;> cases h

theorem decodePcode_incomplete {tl : List Byte} (h : decodePcode tl = .reject .incomplete) :
    tl = [] ∨ ∃ len bs, tl = len :: bs ∧ bs.length < ceilBytes len := by
  cases tl with
  | nil => exact Or.inl rfl
  | cons len bs =>
    refine Or.inr ⟨len, bs, rfl, ?_⟩
    simp only [decodePcode] at h
    split at h
    · assumption
    · cases h

theorem decodeLentry_incomplete {tl : List Byte} (h : decodeLentry tl = .reject .incomplete) :
    tl = [] ∨ (∃ sym, tl = [sym]) ∨ ∃ sym len bs, tl = sym :: len :: bs ∧ bs.length < ceilBytes len := by
  match tl with
  | [] => exact Or.inl rfl
  | [sym] => exact Or.inr (Or.inl ⟨sym, rfl⟩)
  | sym :: len :: bs =>
    refine Or.inr (Or.inr ⟨sym, len, bs, rfl, ?_⟩)
    simp only [decodeLentry] at h
    split at h
    · assumption
    · cases h

theorem decodeDstart_incomplete {tl : List Byte} (h : decodeDstart tl = .reject .incomplete) : tl.length < 4 := by
  match tl with
  | [] => simp
  | [_] => simp
  | [_, _] => simp
  | [_, _, _] => simp
  | _ :: _ :: _ :: _ :: _ => simp [decodeDstart] at h

theorem decodeDbyte_incomplete {tl : List Byte} (h : decodeDbyte tl = .reject .incomplete) : tl = [] := by
  cases tl with
  | nil => rfl
  | cons b tl => simp [decodeDbyte] at h

/-- A byte that follows a partial command completes it with nothing left over, or leaves it partial (R91). -/
theorem decode_snoc {buf : List Byte} {b : Byte} {i : Instr} {rest : List Byte}
    (h : decode buf = .reject .incomplete) (hc : decode (buf ++ [b]) = .command i rest) : rest = [] := by
  rcases decode_incomplete_cases h with rfl | ⟨tl, ⟨rfl, h⟩ | ⟨rfl, h⟩ | ⟨rfl, h⟩ | ⟨rfl, h⟩⟩
  · simp only [List.nil_append, decode] at hc
    repeat' split at hc
    all_goals first
      | (cases hc; rfl)
      | (simp only [decodePcode, decodeLentry, decodeDstart, decodeDbyte] at hc; cases hc)
  · change decodePcode (tl ++ [b]) = _ at hc
    rcases decodePcode_incomplete h with rfl | ⟨len, bs, rfl, hl⟩
    · simp only [List.nil_append, decodePcode] at hc
      split at hc
      · cases hc
      · cases hc; simp
    · simp only [List.cons_append, decodePcode] at hc
      split at hc
      · cases hc
      · cases hc
        simp
        omega
  · change decodeLentry (tl ++ [b]) = _ at hc
    rcases decodeLentry_incomplete h with rfl | ⟨sym, rfl⟩ | ⟨sym, len, bs, rfl, hl⟩
    · simp only [List.nil_append, decodeLentry] at hc
      cases hc
    · simp only [List.cons_append, List.nil_append, decodeLentry] at hc
      split at hc
      · cases hc
      · cases hc; simp
    · simp only [List.cons_append, decodeLentry] at hc
      split at hc
      · cases hc
      · cases hc
        simp
        omega
  · change decodeDstart (tl ++ [b]) = _ at hc
    have hl := decodeDstart_incomplete h
    match tl with
    | [] => cases hc
    | [_] => cases hc
    | [_, _] => cases hc
    | [_, _, _] => cases hc; rfl
    | _ :: _ :: _ :: _ :: _ => simp only [List.length_cons] at hl; omega
  · change decodeDbyte (tl ++ [b]) = _ at hc
    have := decodeDbyte_incomplete h
    subst this
    cases hc
    rfl

end Sys2Proof
end

