-- ==== Sys2Proof/Laws/State.lean ====
section
/-! SUPPORT. What each named update does to each field of the state: one lemma per field and update, true by rfl. -/

namespace Sys2Proof.Machine

/-! emit -/

@[simp] theorem emit_fsm (b : Byte) (s : State) : (emit b s).fsm = s.fsm := rfl
@[simp] theorem emit_err (b : Byte) (s : State) : (emit b s).err = s.err := rfl
@[simp] theorem emit_acc (b : Byte) (s : State) : (emit b s).acc = s.acc := rfl
@[simp] theorem emit_nacc (b : Byte) (s : State) : (emit b s).nacc = s.nacc := rfl
@[simp] theorem emit_bitcnt (b : Byte) (s : State) : (emit b s).bitcnt = s.bitcnt := rfl
@[simp] theorem emit_rem (b : Byte) (s : State) : (emit b s).rem = s.rem := rfl
@[simp] theorem emit_cur (b : Byte) (s : State) : (emit b s).cur = s.cur := rfl
@[simp] theorem emit_nfree (b : Byte) (s : State) : (emit b s).nfree = s.nfree := rfl
@[simp] theorem emit_nent (b : Byte) (s : State) : (emit b s).nent = s.nent := rfl
@[simp] theorem emit_seen (b : Byte) (s : State) : (emit b s).seen = s.seen := rfl
@[simp] theorem emit_mem (b : Byte) (s : State) : (emit b s).mem = s.mem := rfl
@[simp] theorem emit_out (b : Byte) (s : State) : (emit b s).out = s.out ++ [b] := rfl
@[simp] theorem emit_cbuf (b : Byte) (s : State) : (emit b s).cbuf = s.cbuf := rfl
@[simp] theorem emit_inputs (b : Byte) (s : State) : (emit b s).inputs = s.inputs := rfl

/-! faultEntry -/

@[simp] theorem faultEntry_fsm (k : ErrorKind) (s : State) : (faultEntry k s).fsm = .fault := rfl
@[simp] theorem faultEntry_err (k : ErrorKind) (s : State) : (faultEntry k s).err = some k := rfl
@[simp] theorem faultEntry_acc (k : ErrorKind) (s : State) : (faultEntry k s).acc = s.acc := rfl
@[simp] theorem faultEntry_nacc (k : ErrorKind) (s : State) : (faultEntry k s).nacc = s.nacc := rfl
@[simp] theorem faultEntry_bitcnt (k : ErrorKind) (s : State) : (faultEntry k s).bitcnt = s.bitcnt := rfl
@[simp] theorem faultEntry_rem (k : ErrorKind) (s : State) : (faultEntry k s).rem = s.rem := rfl
@[simp] theorem faultEntry_cur (k : ErrorKind) (s : State) : (faultEntry k s).cur = s.cur := rfl
@[simp] theorem faultEntry_nfree (k : ErrorKind) (s : State) : (faultEntry k s).nfree = s.nfree := rfl
@[simp] theorem faultEntry_nent (k : ErrorKind) (s : State) : (faultEntry k s).nent = s.nent := rfl
@[simp] theorem faultEntry_seen (k : ErrorKind) (s : State) : (faultEntry k s).seen = s.seen := rfl
@[simp] theorem faultEntry_mem (k : ErrorKind) (s : State) : (faultEntry k s).mem = s.mem := rfl
@[simp] theorem faultEntry_out (k : ErrorKind) (s : State) : (faultEntry k s).out = s.out := rfl
@[simp] theorem faultEntry_cbuf (k : ErrorKind) (s : State) : (faultEntry k s).cbuf = s.cbuf := rfl
@[simp] theorem faultEntry_inputs (k : ErrorKind) (s : State) : (faultEntry k s).inputs = s.inputs := rfl

/-! clearAll -/

@[simp] theorem clearAll_fsm (s : State) : (clearAll s).fsm = .idle := rfl
@[simp] theorem clearAll_err (s : State) : (clearAll s).err = none := rfl
@[simp] theorem clearAll_acc (s : State) : (clearAll s).acc = 0 := rfl
@[simp] theorem clearAll_nacc (s : State) : (clearAll s).nacc = 0 := rfl
@[simp] theorem clearAll_bitcnt (s : State) : (clearAll s).bitcnt = 0 := rfl
@[simp] theorem clearAll_rem (s : State) : (clearAll s).rem = 0 := rfl
@[simp] theorem clearAll_cur (s : State) : (clearAll s).cur = 0 := rfl
@[simp] theorem clearAll_nfree (s : State) : (clearAll s).nfree = 0 := rfl
@[simp] theorem clearAll_nent (s : State) : (clearAll s).nent = 0 := rfl
@[simp] theorem clearAll_seen (s : State) : (clearAll s).seen = 0 := rfl
@[simp] theorem clearAll_mem (s : State) : (clearAll s).mem = [] := rfl
@[simp] theorem clearAll_out (s : State) : (clearAll s).out = [] := rfl
@[simp] theorem clearAll_cbuf (s : State) : (clearAll s).cbuf = s.cbuf := rfl
@[simp] theorem clearAll_inputs (s : State) : (clearAll s).inputs = s.inputs := rfl

/-! hardReset -/

@[simp] theorem hardReset_fsm (s : State) : (hardReset s).fsm = .idle := rfl
@[simp] theorem hardReset_err (s : State) : (hardReset s).err = none := rfl
@[simp] theorem hardReset_acc (s : State) : (hardReset s).acc = 0 := rfl
@[simp] theorem hardReset_nacc (s : State) : (hardReset s).nacc = 0 := rfl
@[simp] theorem hardReset_bitcnt (s : State) : (hardReset s).bitcnt = 0 := rfl
@[simp] theorem hardReset_rem (s : State) : (hardReset s).rem = 0 := rfl
@[simp] theorem hardReset_cur (s : State) : (hardReset s).cur = 0 := rfl
@[simp] theorem hardReset_nfree (s : State) : (hardReset s).nfree = 0 := rfl
@[simp] theorem hardReset_nent (s : State) : (hardReset s).nent = 0 := rfl
@[simp] theorem hardReset_seen (s : State) : (hardReset s).seen = 0 := rfl
@[simp] theorem hardReset_mem (s : State) : (hardReset s).mem = [] := rfl
@[simp] theorem hardReset_out (s : State) : (hardReset s).out = [] := rfl
@[simp] theorem hardReset_cbuf (s : State) : (hardReset s).cbuf = [] := rfl
@[simp] theorem hardReset_inputs (s : State) : (hardReset s).inputs = s.inputs := rfl

/-! clearOperation -/

@[simp] theorem clearOperation_fsm (s : State) : (clearOperation s).fsm = s.fsm := rfl
@[simp] theorem clearOperation_err (s : State) : (clearOperation s).err = s.err := rfl
@[simp] theorem clearOperation_acc (s : State) : (clearOperation s).acc = 0 := rfl
@[simp] theorem clearOperation_nacc (s : State) : (clearOperation s).nacc = 0 := rfl
@[simp] theorem clearOperation_bitcnt (s : State) : (clearOperation s).bitcnt = 0 := rfl
@[simp] theorem clearOperation_rem (s : State) : (clearOperation s).rem = 0 := rfl
@[simp] theorem clearOperation_cur (s : State) : (clearOperation s).cur = 0 := rfl
@[simp] theorem clearOperation_nfree (s : State) : (clearOperation s).nfree = 0 := rfl
@[simp] theorem clearOperation_nent (s : State) : (clearOperation s).nent = 0 := rfl
@[simp] theorem clearOperation_seen (s : State) : (clearOperation s).seen = 0 := rfl
@[simp] theorem clearOperation_mem (s : State) : (clearOperation s).mem = [] := rfl
@[simp] theorem clearOperation_out (s : State) : (clearOperation s).out = [] := rfl
@[simp] theorem clearOperation_cbuf (s : State) : (clearOperation s).cbuf = s.cbuf := rfl
@[simp] theorem clearOperation_inputs (s : State) : (clearOperation s).inputs = s.inputs := rfl

/-! writeNode -/

@[simp] theorem writeNode_fsm (i : NodeIndex) (n : NodeWord) (s : State) : (writeNode i n s).fsm = s.fsm := rfl
@[simp] theorem writeNode_err (i : NodeIndex) (n : NodeWord) (s : State) : (writeNode i n s).err = s.err := rfl
@[simp] theorem writeNode_acc (i : NodeIndex) (n : NodeWord) (s : State) : (writeNode i n s).acc = s.acc := rfl
@[simp] theorem writeNode_nacc (i : NodeIndex) (n : NodeWord) (s : State) : (writeNode i n s).nacc = s.nacc := rfl
@[simp] theorem writeNode_bitcnt (i : NodeIndex) (n : NodeWord) (s : State) : (writeNode i n s).bitcnt = s.bitcnt := rfl
@[simp] theorem writeNode_rem (i : NodeIndex) (n : NodeWord) (s : State) : (writeNode i n s).rem = s.rem := rfl
@[simp] theorem writeNode_cur (i : NodeIndex) (n : NodeWord) (s : State) : (writeNode i n s).cur = s.cur := rfl
@[simp] theorem writeNode_nfree (i : NodeIndex) (n : NodeWord) (s : State) : (writeNode i n s).nfree = s.nfree := rfl
@[simp] theorem writeNode_nent (i : NodeIndex) (n : NodeWord) (s : State) : (writeNode i n s).nent = s.nent := rfl
@[simp] theorem writeNode_seen (i : NodeIndex) (n : NodeWord) (s : State) : (writeNode i n s).seen = s.seen := rfl
@[simp] theorem writeNode_mem (i : NodeIndex) (n : NodeWord) (s : State) : (writeNode i n s).mem = memWrite s.mem i.toNat n := rfl
@[simp] theorem writeNode_out (i : NodeIndex) (n : NodeWord) (s : State) : (writeNode i n s).out = s.out := rfl
@[simp] theorem writeNode_cbuf (i : NodeIndex) (n : NodeWord) (s : State) : (writeNode i n s).cbuf = s.cbuf := rfl
@[simp] theorem writeNode_inputs (i : NodeIndex) (n : NodeWord) (s : State) : (writeNode i n s).inputs = s.inputs := rfl

end Sys2Proof.Machine
end

