-- ==== Sys2Proof/Laws/Ops.lean ====
section
/-! SUPPORT. What dispatch does (40_control.md R110): which of its four steps applies. -/

namespace Sys2Proof.Machine

/-- Step 1: CLR is executed in every phase. -/
theorem dispatch_clr (body : State → Result) (s : State) : dispatch .clr body s = body s := by
  simp [dispatch]

/-- Step 2: in FAULT any other command is ignored. -/
theorem dispatch_fault {c : Instr} (body : State → Result) {s : State} (hc : c ≠ .clr) (hf : s.fsm = .fault) :
    dispatch c body s = .next s := by
  simp [dispatch, hc, hf]

/-- Outside FAULT a legal command executes its rule. -/
theorem dispatch_legal {c : Instr} (body : State → Result) {s : State} (hf : s.fsm ≠ .fault)
    (hl : legal c s.fsm = true) : dispatch c body s = body s := by
  unfold dispatch
  rw [if_neg hf]
  split
  · rfl
  · simp

/-- Step 4: outside FAULT a command that is not legal raises IllegalCommand. -/
theorem dispatch_illegal {c : Instr} (body : State → Result) {s : State} (hf : s.fsm ≠ .fault)
    (hl : legal c s.fsm = false) : dispatch c body s = .next (faultEntry .illegalCommand s) := by
  have hc : c ≠ .clr := by rintro rfl; simp [legal] at hl
  have hn : c ≠ .nop := by rintro rfl; simp [legal, hf] at hl
  simp [dispatch, hc, hn, hf, hl, raise]

/-- All that dispatch can do: ignore the command, raise IllegalCommand, or execute the rule. -/
theorem dispatch_cases (c : Instr) (body : State → Result) (s : State) :
    (c ≠ .clr ∧ s.fsm = .fault ∧ dispatch c body s = .next s) ∨
    (s.fsm ≠ .fault ∧ legal c s.fsm = false ∧ dispatch c body s = .next (faultEntry .illegalCommand s)) ∨
    ((c = .clr ∨ s.fsm ≠ .fault) ∧ legal c s.fsm = true ∧ dispatch c body s = body s) := by
  by_cases hc : c = .clr
  · subst hc
    exact Or.inr (Or.inr ⟨Or.inl rfl, rfl, dispatch_clr body s⟩)
  · by_cases hf : s.fsm = .fault
    · exact Or.inl ⟨hc, hf, dispatch_fault body hc hf⟩
    · cases hl : legal c s.fsm
      · exact Or.inr (Or.inl ⟨hf, rfl, dispatch_illegal body hf hl⟩)
      · exact Or.inr (Or.inr ⟨Or.inr hf, rfl, dispatch_legal body hf hl⟩)

/-- `withNode` goes on exactly where the word has been written. -/
theorem withNode_some {i : NodeIndex} {s : State} {n : NodeWord} (go : NodeWord → Result)
    (h : memRead s.mem i.toNat = some n) : withNode i s go = go n := by
  simp [withNode, h]

theorem withNode_none {i : NodeIndex} {s : State} (go : NodeWord → Result) (h : memRead s.mem i.toNat = none) :
    withNode i s go = .fault (.nodeUnspecified i.toNat) := by
  simp [withNode, h]

end Sys2Proof.Machine
end

