-- ==== Sys2Proof/Laws/Frames.lean ====
section
/-! SUPPORT. What inserting a code and walking payload bits can change, in every state, reachable or not. -/

namespace Sys2Proof.Machine

/-- An insertion that answers a state has raised, or has written the table load's registers and nodes only. -/
theorem insertCode_any (sym : Byte) (bs : BitString) (p : NodeIndex) (s t : State) (h : insertCode sym bs p s = .next t) :
    (∃ k, t.err = some k ∧ t.fsm = .fault ∧ t = { s with fsm := .fault, err := t.err, mem := t.mem, nfree := t.nfree }) ∨
    t = { s with mem := t.mem, nfree := t.nfree, nent := t.nent, seen := t.seen } := by
  induction bs generalizing p s with
  | nil =>
    simp only [insertCode, finishEntry, withNode] at h
    split at h
    · split at h
      · cases h; exact Or.inl ⟨_, rfl, rfl, rfl⟩
      · split at h
        · cases h; exact Or.inl ⟨_, rfl, rfl, rfl⟩
        · cases h; exact Or.inr rfl
    · cases h
  | cons b bs ih =>
    simp only [insertCode, withNode] at h
    split at h
    · split at h
      · cases h; exact Or.inl ⟨_, rfl, rfl, rfl⟩
      · split at h
        · simp only [createChild, withNode] at h
          split at h
          · rcases ih _ _ h with ⟨k, h1, h2, h3⟩ | h3
            · exact Or.inl ⟨k, h1, h2, h3⟩
            · exact Or.inr h3
          · cases h
        · exact ih _ _ h
    · cases h

/-- An insertion keeps the canonical form of the node memory. -/
theorem insertCode_wf (sym : Byte) (bs : BitString) (p : NodeIndex) (s t : State) (hw : Memory.wf s.mem)
    (h : insertCode sym bs p s = .next t) : Memory.wf t.mem := by
  induction bs generalizing p s with
  | nil =>
    simp only [insertCode, finishEntry, withNode] at h
    split at h
    · split at h
      · cases h; exact hw
      · split at h
        · cases h; exact hw
        · cases h; exact writeNode_wf _ _ _ hw
    · cases h
  | cons b bs ih =>
    simp only [insertCode, withNode] at h
    split at h
    · split at h
      · cases h; exact hw
      · split at h
        · simp only [createChild, withNode] at h
          split at h
          · refine ih _ _ ?_ h; exact writeNode_wf p _ _ (writeNode_wf s.nfree .emptyInternal s hw)
          · cases h
        · exact ih _ _ hw h
    · cases h

/-- A walk appends to `out` and writes `rem` and `cur`; `fsm` and `err` only by raising. -/
theorem walkBits_any (bs : BitString) (s t : State) (h : walkBits bs s = .next t) :
    s.out <+: t.out ∧ ((t.fsm = .fault ∧ t = { s with fsm := .fault, err := t.err, rem := t.rem, cur := t.cur, out := t.out }) ∨
    t = { s with rem := t.rem, cur := t.cur, out := t.out }) := by
  induction bs generalizing s with
  | nil =>
    simp only [walkBits] at h
    split at h
    · cases h; exact ⟨List.prefix_refl _, Or.inl ⟨rfl, rfl⟩⟩
    · cases h; exact ⟨List.prefix_refl _, Or.inr rfl⟩
  | cons b bs ih =>
    simp only [walkBits, walkStep, withNode] at h
    split at h
    · split at h
      · cases h; exact ⟨List.prefix_refl _, Or.inl ⟨rfl, rfl⟩⟩
      · split at h
        · split at h
          · obtain ⟨h1, h2⟩ := ih _ h
            exact ⟨(List.prefix_append _ _).trans h1, h2⟩
          · have := ih _ h; simpa using this
        · cases h
    · cases h

end Sys2Proof.Machine
end

