-- ==== Sys2Proof/Laws/Tree.lean ====
section
/-! SUPPORT. The tree in the node memory (10_state.md R36, R37): paths are unique, every used node leads to a leaf,
and what creating a child and writing a leaf do to the denoted table. -/

namespace Sys2Proof.Machine

@[simp] theorem child_emptyInternal (b : Bool) : NodeWord.emptyInternal.child b = 0 := by cases b <;> rfl

@[simp] theorem child_leafOf (sym : Byte) (b : Bool) : (NodeWord.leafOf sym).child b = 0 := by cases b <;> rfl

theorem child_setChild (n : NodeWord) (b b' : Bool) (c : NodeIndex) :
    (n.setChild b c).child b' = if b' = b then c else n.child b' := by
  cases b <;> cases b' <;> rfl

@[simp] theorem tag_setChild (n : NodeWord) (b : Bool) (c : NodeIndex) : (n.setChild b c).tag = n.tag := by
  cases b <;> rfl

@[simp] theorem sym_setChild (n : NodeWord) (b : Bool) (c : NodeIndex) : (n.setChild b c).sym = n.sym := by
  cases b <;> rfl

theorem children_zero_iff (n : NodeWord) : (∀ b, n.child b = 0) ↔ n.c0 = 0 ∧ n.c1 = 0 := by
  constructor
  · intro h
    exact ⟨h false, h true⟩
  · rintro ⟨h0, h1⟩ b
    cases b
    · exact h0
    · exact h1

theorem children_some_iff (n : NodeWord) : (∃ b, n.child b ≠ 0) ↔ n.c0 ≠ 0 ∨ n.c1 ≠ 0 := by
  constructor
  · rintro ⟨b, h⟩
    cases b
    · exact Or.inl h
    · exact Or.inr h
  · rintro (h | h)
    · exact ⟨false, h⟩
    · exact ⟨true, h⟩

/-- A tree that may still be growing at node `x`: `TreeOk` said through reads, node `x` excused from having a child. -/
structure Growing (m : Memory) (k x : Nat) : Prop where
  written : m.map Prod.fst = List.range k
  root : ∀ n, memRead m 0 = some n → n.tag = .internal
  internalSym : ∀ i n, memRead m i = some n → n.tag = .internal → n.sym = 0
  leafChildless : ∀ i n, memRead m i = some n → n.tag = .leaf → ∀ b, n.child b = 0
  childLater : ∀ i n b, memRead m i = some n → n.child b ≠ 0 → i < (n.child b).toNat ∧ (n.child b).toNat < k
  parentExists : ∀ i, i < k → 0 < i → ∃ p n b, memRead m p = some n ∧ (n.child b).toNat = i
  parentUnique : ∀ i n i' n' b b', memRead m i = some n → memRead m i' = some n' → n.child b ≠ 0 →
    n.child b = n'.child b' → i = i' ∧ b = b'
  used : ∀ i n, memRead m i = some n → 0 < i → i ≠ x → n.tag = .leaf ∨ ∃ b, n.child b ≠ 0

namespace Growing

variable {m : Memory} {k x : Nat}

theorem sorted (h : Growing m k x) : (m.map Prod.fst).Pairwise (· < ·) := by
  rw [h.written]
  exact List.pairwise_lt_range

theorem read_lt (h : Growing m k x) {i : Nat} {n : NodeWord} (hr : memRead m i = some n) : i < k := by
  have := (memRead_isSome_iff m i).1 (by simp [hr])
  rw [h.written] at this
  exact List.mem_range.1 this

theorem read_some (h : Growing m k x) {i : Nat} (hi : i < k) : ∃ n, memRead m i = some n := by
  have := (memRead_isSome_iff m i).2 (by rw [h.written]; exact List.mem_range.2 hi)
  exact Option.isSome_iff_exists.1 this

theorem read_none (h : Growing m k x) {i : Nat} (hi : k ≤ i) : memRead m i = none := by
  cases hr : memRead m i with
  | none => rfl
  | some n => have := h.read_lt hr; omega

end Growing

/-- `TreeOk` is `Growing` with nothing excused. -/
theorem treeOk_iff_growing (m : Memory) (k : Nat) : TreeOk m k ↔ Growing m k 0 := by
  constructor
  · intro h
    have hs : (m.map Prod.fst).Pairwise (· < ·) := by rw [h.written]; exact List.pairwise_lt_range
    have hm := mem_iff_memRead hs
    exact
      { written := h.written
        root := fun n hr => h.root (0, n) ((hm 0 n).2 hr) rfl
        internalSym := fun i n hr => h.internalSym (i, n) ((hm i n).2 hr)
        leafChildless := fun i n hr ht => (children_zero_iff n).2 (h.leafChildless (i, n) ((hm i n).2 hr) ht)
        childLater := fun i n b hr => h.childLater (i, n) ((hm i n).2 hr) b
        parentExists := fun i hi h0 => by
          obtain ⟨⟨p, n⟩, hc, b, hb⟩ := h.parentExists i hi h0
          exact ⟨p, n, b, (hm p n).1 hc, hb⟩
        parentUnique := fun i n i' n' b b' hr hr' =>
          h.parentUnique (i, n) ((hm i n).2 hr) (i', n') ((hm i' n').2 hr') b b'
        used := fun i n hr h0 _ => by
          rw [children_some_iff]
          exact h.used (i, n) ((hm i n).2 hr) h0 }
  · intro h
    have hm := mem_iff_memRead h.sorted
    exact
      { written := h.written
        root := by
          rintro ⟨i, n⟩ hc rfl
          exact h.root n ((hm 0 n).1 hc)
        internalSym := fun c hc => h.internalSym c.1 c.2 ((hm c.1 c.2).1 hc)
        leafChildless := fun c hc ht => (children_zero_iff c.2).1 (h.leafChildless c.1 c.2 ((hm c.1 c.2).1 hc) ht)
        childLater := fun c hc b => h.childLater c.1 c.2 b ((hm c.1 c.2).1 hc)
        parentExists := fun i hi h0 => by
          obtain ⟨p, n, b, hr, hb⟩ := h.parentExists i hi h0
          exact ⟨(p, n), (hm p n).2 hr, b, hb⟩
        parentUnique := fun c hc d hd b b' =>
          h.parentUnique c.1 c.2 d.1 d.2 b b' ((hm c.1 c.2).1 hc) ((hm d.1 d.2).1 hd)
        used := fun c hc h0 => by
          rw [← children_some_iff]
          exact h.used c.1 c.2 ((hm c.1 c.2).1 hc) h0 (by omega) }

/-! ### Paths -/

theorem follow_cons {m : Memory} {p : NodeIndex} {n : NodeWord} (b : Bool) (bs : BitString)
    (hr : memRead m p.toNat = some n) :
    follow m p (b :: bs) = if n.child b = 0 then none else follow m (n.child b) bs := by
  simp [follow, hr]

theorem follow_append (m : Memory) (p : NodeIndex) (u v : BitString) :
    follow m p (u ++ v) = (follow m p u).bind fun q => follow m q v := by
  induction u generalizing p with
  | nil => rfl
  | cons b u ih =>
    simp only [List.cons_append, follow]
    cases memRead m p.toNat with
    | none => rfl
    | some n =>
      simp only
      split
      · rfl
      · exact ih _

/-- The last edge of a path. -/
theorem follow_concat {m : Memory} {p q : NodeIndex} {u : BitString} {b : Bool} (h : follow m p (u ++ [b]) = some q) :
    ∃ r n, follow m p u = some r ∧ memRead m r.toNat = some n ∧ n.child b = q ∧ q ≠ 0 := by
  rw [follow_append] at h
  cases hu : follow m p u with
  | none => simp [hu] at h
  | some r =>
    rw [hu] at h
    simp only [Option.bind_some, follow] at h
    cases hr : memRead m r.toNat with
    | none => simp [hr] at h
    | some n =>
      rw [hr] at h
      simp only at h
      split at h
      · cases h
      · rename_i hc
        cases h
        exact ⟨r, n, rfl, hr, rfl, hc⟩

theorem bitVec_eq_of_toNat {w : Nat} {a b : BitVec w} (h : a.toNat = b.toNat) : a = b := BitVec.eq_of_toNat_eq h

/-- Two paths from the root to one node are one path (R37). -/
theorem Growing.follow_inj {m : Memory} {k x : Nat} (h : Growing m k x) {u v : BitString} {i : NodeIndex}
    (hu : follow m 0 u = some i) (hv : follow m 0 v = some i) : u = v := by
  induction u using List.reverseRecOn generalizing v i with
  | nil =>
    cases hu
    rcases List.eq_nil_or_concat v with rfl | ⟨v', b, rfl⟩
    · rfl
    · obtain ⟨r, n, _, _, _, h0⟩ := follow_concat (by simpa using hv)
      exact absurd rfl h0
  | append_singleton u b ih =>
    obtain ⟨r, n, hr, hn, hc, h0⟩ := follow_concat hu
    rcases List.eq_nil_or_concat v with rfl | ⟨v', b', rfl⟩
    · cases hv
      exact absurd rfl h0
    · rw [List.concat_eq_append] at hv ⊢
      obtain ⟨r', n', hr', hn', hc', _⟩ := follow_concat hv
      obtain ⟨h1, h2⟩ := h.parentUnique _ _ _ _ b b' hn hn' (by rw [hc]; exact h0) (by rw [hc, hc'])
      have hrr := bitVec_eq_of_toNat h1
      subst hrr h2
      rw [ih hr hr']

/-- A path from a written node stays on written nodes. -/
theorem Growing.follow_read {m : Memory} {k x : Nat} (h : Growing m k x) {u : BitString} {p q : NodeIndex}
    (hp : p.toNat < k) (hu : follow m p u = some q) : q.toNat < k := by
  induction u generalizing p with
  | nil => cases hu; exact hp
  | cons b u ih =>
    obtain ⟨n, hn⟩ := h.read_some hp
    rw [follow_cons b u hn] at hu
    split at hu
    · cases hu
    · rename_i hc
      exact ih (h.childLater _ _ b hn hc).2 hu

/-- No path goes on from a leaf. -/
theorem follow_childless {m : Memory} {p q : NodeIndex} {n : NodeWord}
    (hn : memRead m p.toNat = some n) (hc : ∀ b, n.child b = 0) {u : BitString} (hu : follow m p u = some q) :
    u = [] := by
  cases u with
  | nil => rfl
  | cons b u =>
    rw [follow_cons b u hn, if_pos (hc b)] at hu
    cases hu

theorem leafSym_some {m : Memory} {p : NodeIndex} {sym : Byte} (h : leafSym m p = some sym) :
    ∃ n, memRead m p.toNat = some n ∧ n.tag = .leaf ∧ n.sym = sym := by
  unfold leafSym at h
  cases hr : memRead m p.toNat with
  | none => simp [hr] at h
  | some n =>
    rw [hr] at h
    simp only at h
    split at h
    · cases h
      exact ⟨n, rfl, ‹_›, rfl⟩
    · cases h

theorem tableLookup_some {m : Memory} {w : BitString} {sym : Byte} (h : tableLookup m w = some sym) :
    ∃ i n, follow m 0 w = some i ∧ memRead m i.toNat = some n ∧ n.tag = .leaf ∧ n.sym = sym := by
  unfold tableLookup at h
  cases hf : follow m 0 w with
  | none => rw [hf] at h; cases h
  | some i =>
    rw [hf] at h
    obtain ⟨n, hn⟩ := leafSym_some h
    exact ⟨i, n, rfl, hn⟩

theorem tableLookup_of {m : Memory} {w : BitString} {i : NodeIndex} {n : NodeWord} (hf : follow m 0 w = some i)
    (hn : memRead m i.toNat = some n) (ht : n.tag = .leaf) : tableLookup m w = some n.sym := by
  rw [tableLookup, hf, Option.bind_some, leafSym, hn]
  exact if_pos ht

/-- From a node that is not the root a path leads to a leaf (R36 (d)). -/
theorem Growing.leaf_below {m : Memory} {k : Nat} (h : Growing m k 0) (p : NodeIndex) (h0 : 0 < p.toNat)
    (hk : p.toNat < k) : ∃ v i n, follow m p v = some i ∧ memRead m i.toNat = some n ∧ n.tag = .leaf := by
  generalize hd : k - p.toNat = d
  induction d using Nat.strong_induction_on generalizing p with
  | _ d ih =>
    obtain ⟨n, hn⟩ := h.read_some hk
    rcases h.used _ n hn h0 (by omega) with ht | ⟨b, hb⟩
    · exact ⟨[], p, n, rfl, hn, ht⟩
    · obtain ⟨h1, h2⟩ := h.childLater _ n b hn hb
      obtain ⟨v, i, n', hv, hi, ht⟩ := ih (k - (n.child b).toNat) (by omega) (n.child b) (by omega) h2 rfl
      exact ⟨b :: v, i, n', by rw [follow_cons b v hn, if_neg hb]; exact hv, hi, ht⟩

end Sys2Proof.Machine
end

