-- ==== Sys2Proof/Laws/Insert.lean ====
section
/-! SUPPORT. What inserting a code does (41_table_load.md R124 to R126): the two writes that create a child, the write
of the leaf, the walk that creates nodes, and the whole insertion. -/

namespace Sys2Proof.Machine

/-- The memory after a child has been created at index `c` under bit `b` of node `p`. -/
def withChild (m : Memory) (p : NodeIndex) (n : NodeWord) (b : Bool) (c : NodeIndex) : Memory :=
  memWrite (memWrite m c.toNat .emptyInternal) p.toNat (n.setChild b c)

section create

variable {m : Memory} {k x : Nat} {p c : NodeIndex} {n : NodeWord} {b : Bool}

theorem memRead_withChild (m : Memory) (p : NodeIndex) (n : NodeWord) (b : Bool) (c : NodeIndex) (i : Nat) :
    memRead (withChild m p n b c) i =
      if i = p.toNat then some (n.setChild b c) else if i = c.toNat then some .emptyInternal else memRead m i := by
  simp only [withChild, memRead_memWrite]

/-- Creating a missing child keeps the tree, the new node being the one that has no child yet. -/
theorem Growing.withChild (h : Growing m k x) (hx : x = 0 ∨ x = p.toNat) (hp : memRead m p.toNat = some n)
    (ht : n.tag = .internal) (h0 : n.child b = 0) (hc : c.toNat = k) :
    Growing (withChild m p n b c) (k + 1) k := by
  have hpk := h.read_lt hp
  have hcz : c ≠ 0 := by
    rintro rfl
    simp at hc
    omega
  have hrd := memRead_withChild m p n b c
  have hw1 : (memWrite m c.toNat .emptyInternal).map Prod.fst = List.range (k + 1) := by
    rw [memWrite_append, List.map_append, h.written, List.range_succ, hc]
    · rfl
    · intro j hj
      rw [h.written] at hj
      rw [hc]
      exact List.mem_range.1 hj
  have hs1 : ((memWrite m c.toNat .emptyInternal).map Prod.fst).Pairwise (· < ·) := memWrite_sorted _ _ _ h.sorted
  /- every word of the new memory, by where it stands -/
  have cases : ∀ i n', memRead (Machine.withChild m p n b c) i = some n' →
      (i = p.toNat ∧ n' = n.setChild b c) ∨ (i = k ∧ n' = .emptyInternal) ∨
        (i ≠ p.toNat ∧ i < k ∧ memRead m i = some n') := by
    intro i n' hi
    rw [hrd] at hi
    split at hi
    · cases hi; exact Or.inl ⟨‹_›, rfl⟩
    · split at hi
      · cases hi; exact Or.inr (Or.inl ⟨by omega, rfl⟩)
      · exact Or.inr (Or.inr ⟨‹_›, h.read_lt hi, hi⟩)
  /- a child field of the new memory that is not 0 is the new link or an old one -/
  have kids : ∀ i n' b', memRead (Machine.withChild m p n b c) i = some n' → n'.child b' ≠ 0 →
      (i = p.toNat ∧ b' = b ∧ n'.child b' = c) ∨
        (∃ o, memRead m i = some o ∧ o.child b' = n'.child b') := by
    intro i n' b' hi hn
    rcases cases i n' hi with ⟨rfl, rfl⟩ | ⟨rfl, rfl⟩ | ⟨_, _, ho⟩
    · rw [child_setChild] at hn ⊢
      split
      · exact Or.inl ⟨rfl, ‹_›, rfl⟩
      · exact Or.inr ⟨n, hp, rfl⟩
    · exact absurd (child_emptyInternal b') hn
    · exact Or.inr ⟨n', ho, rfl⟩
  have old : ∀ i o b', memRead m i = some o → o.child b' ≠ 0 →
      ∃ n', memRead (Machine.withChild m p n b c) i = some n' ∧ n'.child b' = o.child b' := by
    intro i o b' ho hn
    rw [hrd]
    split
    · rename_i hi
      subst hi
      rw [hp] at ho
      cases ho
      refine ⟨_, rfl, ?_⟩
      rw [child_setChild, if_neg]
      rintro rfl
      exact hn h0
    · have := h.read_lt ho
      rw [if_neg (by omega)]
      exact ⟨o, ho, rfl⟩
  refine
    { written := ?_, root := ?_, internalSym := ?_, leafChildless := ?_, childLater := ?_, parentExists := ?_
      parentUnique := ?_, used := ?_ }
  · rw [Machine.withChild, keys_memWrite_listed _ hs1, hw1]
    rw [hw1]
    exact List.mem_range.2 (by omega)
  · intro n' hi
    rcases cases 0 n' hi with ⟨_, rfl⟩ | ⟨_, rfl⟩ | ⟨_, _, ho⟩
    · rw [tag_setChild, ht]
    · rfl
    · exact h.root n' ho
  · intro i n' hi
    rcases cases i n' hi with ⟨rfl, rfl⟩ | ⟨_, rfl⟩ | ⟨_, _, ho⟩
    · rw [tag_setChild, sym_setChild]
      exact h.internalSym _ n hp
    · exact fun _ => rfl
    · exact h.internalSym i n' ho
  · intro i n' hi htag
    rcases cases i n' hi with ⟨rfl, rfl⟩ | ⟨_, rfl⟩ | ⟨_, _, ho⟩
    · rw [tag_setChild, ht] at htag
      cases htag
    · cases htag
    · exact h.leafChildless i n' ho htag
  · intro i n' b' hi hn
    rcases kids i n' b' hi hn with ⟨rfl, rfl, hch⟩ | ⟨o, ho, hch⟩
    · rw [hch]
      omega
    · rw [← hch] at hn ⊢
      have := h.childLater i o b' ho hn
      omega
  · intro i hi hi0
    by_cases hik : i = k
    · subst hik
      refine ⟨p.toNat, n.setChild b c, b, ?_, ?_⟩
      · rw [hrd, if_pos rfl]
      · rw [child_setChild, if_pos rfl, hc]
    · obtain ⟨q, o, b', ho, hb⟩ := h.parentExists i (by omega) hi0
      obtain ⟨n', hn', hch⟩ := old q o b' ho (by
        intro hz
        rw [hz] at hb
        simp at hb
        omega)
      exact ⟨q, n', b', hn', by rw [hch, hb]⟩
  · intro i n1 i' n2 b1 b2 h1 h2 hn he
    have hn2 : n2.child b2 ≠ 0 := by rw [← he]; exact hn
    rcases kids i n1 b1 h1 hn with ⟨rfl, rfl, hch1⟩ | ⟨o1, ho1, hch1⟩
    · rcases kids i' n2 b2 h2 hn2 with ⟨rfl, rfl, _⟩ | ⟨o2, ho2, hch2⟩
      · exact ⟨rfl, rfl⟩
      · rw [← hch2] at hn2
        have := (h.childLater i' o2 b2 ho2 hn2).2
        rw [hch2, ← he, hch1] at this
        omega
    · rcases kids i' n2 b2 h2 hn2 with ⟨rfl, rfl, hch2⟩ | ⟨o2, ho2, hch2⟩
      · rw [← hch1] at hn
        have := (h.childLater i o1 b1 ho1 hn).2
        rw [hch1, he, hch2] at this
        omega
      · exact h.parentUnique i o1 i' o2 b1 b2 ho1 ho2 (by rw [hch1]; exact hn) (by rw [hch1, he, hch2])
  · intro i n' hi hi0 hik
    rcases cases i n' hi with ⟨rfl, rfl⟩ | ⟨rfl, _⟩ | ⟨hip, _, ho⟩
    · exact Or.inr ⟨b, by rw [child_setChild, if_pos rfl]; exact hcz⟩
    · exact absurd rfl hik
    · exact h.used i n' ho hi0 (by omega)

/-- The new child is at the end of the lengthened path. -/
theorem follow_withChild_new (h : Growing m k x) (hp : memRead m p.toNat = some n) (h0 : n.child b = 0)
    (hc : c.toNat = k) {u : BitString} (hu : follow m 0 u = some p) :
    follow (withChild m p n b c) 0 (u ++ [b]) = some c := by
  have hpk := h.read_lt hp
  have hcz : c ≠ 0 := by
    rintro rfl
    simp at hc
    omega
  have mono : ∀ (v : BitString) (q r : NodeIndex), follow m q v = some r → follow (withChild m p n b c) q v = some r := by
    intro v
    induction v with
    | nil => exact fun q r hq => hq
    | cons b' v ih =>
      intro q r hq
      cases hr : memRead m q.toNat with
      | none => simp [follow, hr] at hq
      | some o =>
        rw [follow_cons b' v hr] at hq
        split at hq
        · cases hq
        · rename_i hz
          have hql := h.read_lt hr
          by_cases hqp : q.toNat = p.toNat
          · have ho : o = n := by rw [hqp, hp] at hr; cases hr; rfl
            subst ho
            have hr' : memRead (withChild m p o b c) q.toNat = some (o.setChild b c) := by
              rw [memRead_withChild, if_pos hqp]
            have hbb : b' ≠ b := by rintro rfl; exact hz h0
            rw [follow_cons b' v hr', child_setChild, if_neg hbb, if_neg hz]
            exact ih _ _ hq
          · have hr' : memRead (withChild m p n b c) q.toNat = some o := by
              rw [memRead_withChild, if_neg hqp, if_neg (by omega), hr]
            rw [follow_cons b' v hr', if_neg hz]
            exact ih _ _ hq
  rw [follow_append, mono u 0 p hu, Option.bind_some]
  have hr' : memRead (withChild m p n b c) p.toNat = some (n.setChild b c) := by rw [memRead_withChild, if_pos rfl]
  rw [follow_cons b [] hr', child_setChild, if_pos rfl, if_neg hcz]
  rfl

/-- A new INTERNAL child changes no entry of the denoted table. -/
theorem tableLookup_withChild (h : Growing m k x) (hp : memRead m p.toNat = some n) (ht : n.tag = .internal)
    (h0 : n.child b = 0) (hc : c.toNat = k) (v : BitString) :
    tableLookup (withChild m p n b c) v = tableLookup m v := by
  have hpk := h.read_lt hp
  have hcz : c ≠ 0 := by
    rintro rfl
    simp at hc
    omega
  have hcr : memRead (withChild m p n b c) c.toNat = some .emptyInternal := by
    rw [memRead_withChild, if_neg (by omega), if_pos rfl]
  have hcl : ∀ w : BitString, (follow (withChild m p n b c) c w).bind (leafSym (withChild m p n b c)) = none := by
    intro w
    cases w with
    | nil => simp [follow, leafSym, hcr, NodeWord.emptyInternal]
    | cons b' w => rw [follow_cons b' w hcr, if_pos (child_emptyInternal b')]; rfl
  have gen : ∀ (v : BitString) (q : NodeIndex), q.toNat < k →
      (follow (withChild m p n b c) q v).bind (leafSym (withChild m p n b c)) = (follow m q v).bind (leafSym m) := by
    intro v
    induction v with
    | nil =>
      intro q hq
      simp only [follow, Option.bind_some, leafSym, memRead_withChild]
      by_cases hqp : q.toNat = p.toNat
      · rw [if_pos hqp, hqp, hp]
        simp [ht]
      · rw [if_neg hqp, if_neg (by omega)]
    | cons b' v ih =>
      intro q hq
      obtain ⟨o, hr⟩ := h.read_some hq
      rw [follow_cons b' v hr]
      by_cases hqp : q.toNat = p.toNat
      · have ho : o = n := by rw [hqp, hp] at hr; cases hr; rfl
        subst ho
        have hr' : memRead (withChild m p o b c) q.toNat = some (o.setChild b c) := by
          rw [memRead_withChild, if_pos hqp]
        rw [follow_cons b' v hr', child_setChild]
        by_cases hbb : b' = b
        · subst hbb
          rw [if_pos rfl, if_neg hcz, if_pos h0, hcl]
          rfl
        · rw [if_neg hbb]
          split
          · rfl
          · rename_i hz
            exact ih _ (h.childLater _ o b' hr hz).2
      · have hr' : memRead (withChild m p n b c) q.toNat = some o := by
          rw [memRead_withChild, if_neg hqp, if_neg (by omega), hr]
        rw [follow_cons b' v hr']
        split
        · rfl
        · rename_i hz
          exact ih _ (h.childLater _ o b' hr hz).2
  exact gen v 0 (by simp; omega)

/-- A new INTERNAL child adds no LEAF. -/
theorem leafCount_withChild (h : Growing m k x) (hp : memRead m p.toNat = some n) (ht : n.tag = .internal)
    (hc : c.toNat = k) : leafCount (withChild m p n b c) = leafCount m := by
  have hpk := h.read_lt hp
  have hr1 : memRead (memWrite m c.toNat .emptyInternal) p.toNat = some n := by
    rw [memRead_memWrite, if_neg (by omega), hp]
  have := countP_memWrite_listed (n.setChild b c) (fun c => decide (c.2.tag = .leaf)) (memWrite_sorted m c.toNat
    .emptyInternal h.sorted) hr1
  simp only [tag_setChild, ht] at this
  unfold leafCount withChild
  have h1 : (memWrite m c.toNat .emptyInternal).countP (fun c => decide (c.2.tag = .leaf)) =
      m.countP fun c => decide (c.2.tag = .leaf) := by
    rw [memWrite_append, List.countP_append]
    · simp [NodeWord.emptyInternal]
    · intro j hj
      rw [h.written] at hj
      rw [hc]
      exact List.mem_range.1 hj
  rw [← h1]
  simpa using this

end create

/-! ### Writing the leaf -/

section leaf

variable {m : Memory} {k : Nat} {p : NodeIndex} {n : NodeWord} (sym : Byte)

/-- Turning the childless end node into a LEAF completes the tree. -/
theorem Growing.writeLeaf (h : Growing m k p.toNat) (hp : memRead m p.toNat = some n)
    (h0 : ∀ b, n.child b = 0) (hp0 : 0 < p.toNat) : Growing (memWrite m p.toNat (.leafOf sym)) k 0 := by
  have hrd := fun i => memRead_memWrite m p.toNat i (.leafOf sym)
  have cases : ∀ i n', memRead (memWrite m p.toNat (.leafOf sym)) i = some n' →
      (i = p.toNat ∧ n' = .leafOf sym) ∨ (i ≠ p.toNat ∧ memRead m i = some n') := by
    intro i n' hi
    rw [hrd] at hi
    split at hi
    · cases hi; exact Or.inl ⟨‹_›, rfl⟩
    · exact Or.inr ⟨‹_›, hi⟩
  have kids : ∀ i n' b, memRead (memWrite m p.toNat (.leafOf sym)) i = some n' → n'.child b ≠ 0 →
      memRead m i = some n' := by
    intro i n' b hi hn
    rcases cases i n' hi with ⟨_, rfl⟩ | ⟨_, ho⟩
    · exact absurd (child_leafOf sym b) hn
    · exact ho
  refine
    { written := ?_, root := ?_, internalSym := ?_, leafChildless := ?_, childLater := ?_, parentExists := ?_
      parentUnique := ?_, used := ?_ }
  · rw [keys_memWrite_listed _ h.sorted, h.written]
    rw [h.written]
    exact List.mem_range.2 (h.read_lt hp)
  · intro n' hi
    rcases cases 0 n' hi with ⟨hz, _⟩ | ⟨_, ho⟩
    · omega
    · exact h.root n' ho
  · intro i n' hi ht
    rcases cases i n' hi with ⟨_, rfl⟩ | ⟨_, ho⟩
    · cases ht
    · exact h.internalSym i n' ho ht
  · intro i n' hi ht
    rcases cases i n' hi with ⟨_, rfl⟩ | ⟨_, ho⟩
    · exact child_leafOf sym
    · exact h.leafChildless i n' ho ht
  · intro i n' b hi hn
    exact h.childLater i n' b (kids i n' b hi hn) hn
  · intro i hi hi0
    obtain ⟨q, o, b, ho, hb⟩ := h.parentExists i hi hi0
    have hqp : q ≠ p.toNat := by
      rintro rfl
      rw [hp] at ho
      cases ho
      rw [h0 b] at hb
      simp at hb
      omega
    exact ⟨q, o, b, by rw [hrd, if_neg hqp, ho], hb⟩
  · intro i n1 i' n2 b1 b2 h1 h2 hn he
    exact h.parentUnique i n1 i' n2 b1 b2 (kids i n1 b1 h1 hn) (kids i' n2 b2 h2 (by rw [← he]; exact hn)) hn he
  · intro i n' hi hi0 _
    rcases cases i n' hi with ⟨_, rfl⟩ | ⟨hip, ho⟩
    · exact Or.inl rfl
    · exact h.used i n' ho hi0 hip

theorem follow_writeLeaf (hp : memRead m p.toNat = some n) (h0 : ∀ b, n.child b = 0) (q : NodeIndex) (v : BitString) :
    follow (memWrite m p.toNat (.leafOf sym)) q v = follow m q v := by
  induction v generalizing q with
  | nil => rfl
  | cons b v ih =>
    simp only [follow, memRead_memWrite]
    by_cases hq : q.toNat = p.toNat
    · rw [if_pos hq, hq, hp]
      simp [h0]
    · rw [if_neg hq]
      cases memRead m q.toNat with
      | none => rfl
      | some o => simp only [ih]

/-- The new LEAF is one new entry of the denoted table (R37). -/
theorem tableLookup_writeLeaf {x : Nat} (h : Growing m k x) (hp : memRead m p.toNat = some n)
    (h0 : ∀ b, n.child b = 0) {w : BitString} (hw : follow m 0 w = some p) (v : BitString) :
    tableLookup (memWrite m p.toNat (.leafOf sym)) v = if v = w then some sym else tableLookup m v := by
  unfold tableLookup
  rw [follow_writeLeaf sym hp h0]
  split
  · rename_i hv
    subst hv
    rw [hw]
    simp [leafSym, memRead_memWrite, NodeWord.leafOf]
  · rename_i hv
    cases hf : follow m 0 v with
    | none => rfl
    | some i =>
      have hip : i.toNat ≠ p.toNat := by
        intro hi
        have := bitVec_eq_of_toNat hi
        subst this
        exact hv (h.follow_inj hf hw)
      simp only [Option.bind_some, leafSym, memRead_memWrite, if_neg hip]

theorem leafCount_writeLeaf {x : Nat} (h : Growing m k x) (hp : memRead m p.toNat = some n) (ht : n.tag = .internal) :
    leafCount (memWrite m p.toNat (.leafOf sym)) = leafCount m + 1 := by
  have := countP_memWrite_listed (.leafOf sym) (fun c => decide (c.2.tag = .leaf)) h.sorted hp
  have hl : (NodeWord.leafOf sym).tag = .leaf := rfl
  simp only [ht, hl] at this
  unfold leafCount
  simpa using this

end leaf

/-! ### The whole insertion -/

/-- Some LEAF holds the symbol (R29). -/
def HoldsSym (m : Memory) (y : Byte) : Prop := ∃ i n, memRead m i = some n ∧ n.tag = .leaf ∧ n.sym = y

theorem holdsSym_iff {m : Memory} (hs : (m.map Prod.fst).Pairwise (· < ·)) (y : Byte) :
    HoldsSym m y ↔ ∃ c ∈ m, c.2.tag = .leaf ∧ c.2.sym = y := by
  constructor
  · rintro ⟨i, n, hr, h⟩
    exact ⟨(i, n), (mem_iff_memRead hs i n).2 hr, h⟩
  · rintro ⟨⟨i, n⟩, hc, h⟩
    exact ⟨i, n, (mem_iff_memRead hs i n).1 hc, h⟩

theorem holdsSym_withChild {m : Memory} {k x : Nat} {p c : NodeIndex} {n : NodeWord} {b : Bool} (h : Growing m k x)
    (hp : memRead m p.toNat = some n) (ht : n.tag = .internal) (hc : c.toNat = k) (y : Byte) :
    HoldsSym (withChild m p n b c) y ↔ HoldsSym m y := by
  constructor
  · rintro ⟨i, o, hr, ho, hy⟩
    rw [memRead_withChild] at hr
    split at hr
    · cases hr
      rw [tag_setChild, ht] at ho
      cases ho
    · split at hr
      · cases hr; cases ho
      · exact ⟨i, o, hr, ho, hy⟩
  · rintro ⟨i, o, hr, ho, hy⟩
    refine ⟨i, o, ?_, ho, hy⟩
    have := h.read_lt hr
    rw [memRead_withChild, if_neg, if_neg (by omega), hr]
    rintro rfl
    rw [hp] at hr
    cases hr
    rw [ht] at ho
    cases ho

theorem holdsSym_writeLeaf {m : Memory} {p : NodeIndex} {n : NodeWord} (sym : Byte)
    (hp : memRead m p.toNat = some n) (ht : n.tag = .internal) (y : Byte) :
    HoldsSym (memWrite m p.toNat (.leafOf sym)) y ↔ y = sym ∨ HoldsSym m y := by
  constructor
  · rintro ⟨i, o, hr, ho, hy⟩
    rw [memRead_memWrite] at hr
    split at hr
    · cases hr
      exact Or.inl hy.symm
    · exact Or.inr ⟨i, o, hr, ho, hy⟩
  · rintro (rfl | ⟨i, o, hr, ho, hy⟩)
    · exact ⟨p.toNat, .leafOf y, memRead_memWrite_same _ _ _, rfl, rfl⟩
    · refine ⟨i, o, ?_, ho, hy⟩
      rw [memRead_memWrite, if_neg, hr]
      rintro rfl
      rw [hp] at hr
      cases hr
      rw [ht] at ho
      cases ho

/-- All that a successful insertion of `w` does. -/
structure Inserted (sym : Byte) (w : BitString) (s t : State) : Prop where
  frame : t = { s with
    mem := t.mem, nfree := t.nfree, seen := s.seen ||| BitVec.twoPow 256 sym.toNat, nent := s.nent + 1 }
  tree : Growing t.mem t.nfree.toNat 0
  table : ∀ v, tableLookup t.mem v = if v = w then some sym else tableLookup s.mem v
  leaves : leafCount t.mem = leafCount s.mem + 1
  holds : ∀ y, HoldsSym t.mem y ↔ y = sym ∨ HoldsSym s.mem y

theorem finishEntry_childless {sym : Byte} {p : NodeIndex} {s : State} {n : NodeWord} {w : BitString}
    (h : Growing s.mem s.nfree.toNat p.toNat) (hp : memRead s.mem p.toNat = some n) (ht : n.tag = .internal)
    (h0 : ∀ b, n.child b = 0) (hp0 : 0 < p.toNat) (hw : follow s.mem 0 w = some p) :
    ∃ t, finishEntry sym p s = .next t ∧ Inserted sym w s t ∧ t.nfree = s.nfree ∧
      t.mem = memWrite s.mem p.toNat (.leafOf sym) := by
  have hz := (children_zero_iff n).1 h0
  refine ⟨{ writeNode p (.leafOf sym) s with
    seen := s.seen ||| BitVec.twoPow 256 sym.toNat, nent := s.nent + 1 }, ?_, ?_, rfl, rfl⟩
  · rw [finishEntry, withNode_some _ hp, if_neg (by rw [ht]; exact Tag.noConfusion), if_neg (by simp [hz])]
  · exact
      { frame := rfl
        tree := h.writeLeaf sym hp h0 hp0
        table := tableLookup_writeLeaf sym h hp h0 hw
        leaves := leafCount_writeLeaf sym h hp ht
        holds := holdsSym_writeLeaf sym hp ht }

/-- Creating a missing child, as the state sees it. -/
theorem createChild_next {p : NodeIndex} {b : Bool} {s : State} {n : NodeWord} {x : Nat}
    (h : Growing s.mem s.nfree.toNat x) (hp : memRead s.mem p.toNat = some n) (go : State → Result) :
    createChild p b s go = go { s with mem := withChild s.mem p n b s.nfree, nfree := s.nfree + 1 } := by
  have hpk := h.read_lt hp
  have hr : memRead (writeNode s.nfree .emptyInternal s).mem p.toNat = some n := by
    rw [writeNode_mem, memRead_memWrite, if_neg (by omega), hp]
  rw [createChild, withNode_some _ hr]
  rfl

theorem toNat_succ_nfree {c : NodeIndex} (h : c.toNat < 65535) : (c + 1).toNat = c.toNat + 1 := by
  rw [BitVec.toNat_add]
  simp
  omega

/-- From a fresh end node the walk creates one node per bit and succeeds (R125). -/
theorem insertCode_fresh (sym : Byte) (bs : BitString) (p : NodeIndex) (s : State) (u : BitString) {n : NodeWord}
    (h : Growing s.mem s.nfree.toNat p.toNat) (hp : memRead s.mem p.toNat = some n) (ht : n.tag = .internal)
    (h0 : ∀ b, n.child b = 0) (hp0 : 0 < p.toNat) (hu : follow s.mem 0 u = some p)
    (hroom : s.nfree.toNat + bs.length ≤ 65535) (he : n = .emptyInternal) (hpn : s.nfree = p + 1) :
    ∃ t, insertCode sym bs p s = .next t ∧ Inserted sym (u ++ bs) s t ∧
      t.nfree.toNat = s.nfree.toNat + bs.length ∧
      (∀ i < s.nfree.toNat, i ≠ p.toNat → memRead t.mem i = memRead s.mem i) ∧
      ∀ j < bs.length + 1, memRead t.mem (p.toNat + j) = (newNodes sym p bs)[j]? := by
  induction bs generalizing p s u n with
  | nil =>
    obtain ⟨t, h1, h2, h3, h4⟩ := finishEntry_childless (sym := sym) h hp ht h0 hp0 hu
    refine ⟨t, h1, by rwa [List.append_nil], by rw [h3]; rfl, ?_, ?_⟩
    · intro i _ hi
      rw [h4, memRead_memWrite, if_neg hi]
    · intro j hj
      obtain rfl : j = 0 := by simpa using hj
      rw [h4, memRead_memWrite, if_pos (Nat.add_zero _)]
      rfl
  | cons b bs ih =>
    rw [List.length_cons] at hroom
    have hpk := h.read_lt hp
    have hk : (s.nfree + 1).toNat = s.nfree.toNat + 1 := toNat_succ_nfree (by omega)
    have hcr : memRead (withChild s.mem p n b s.nfree) s.nfree.toNat = some .emptyInternal := by
      rw [memRead_withChild, if_neg (by omega), if_pos rfl]
    have hg : Growing (withChild s.mem p n b s.nfree) (s.nfree + 1).toNat s.nfree.toNat := by
      rw [hk]
      exact h.withChild (Or.inr rfl) hp ht (h0 b) rfl
    obtain ⟨t, h1, h2, h3, h4, h5⟩ := ih s.nfree { s with mem := withChild s.mem p n b s.nfree, nfree := s.nfree + 1 }
      (u ++ [b]) hg hcr rfl child_emptyInternal (by omega) (follow_withChild_new h hp (h0 b) rfl hu)
      (by simp only [hk]; omega) rfl rfl
    refine ⟨t, ?_, ?_, ?_, ?_, ?_⟩
    · rw [insertCode, withNode_some _ hp, if_neg (by rw [ht]; exact Tag.noConfusion), if_pos (h0 b),
        createChild_next h hp]
      exact h1
    · rw [List.append_assoc] at h2
      exact
        { frame := h2.frame
          tree := h2.tree
          table := fun v => by rw [h2.table, tableLookup_withChild h hp ht (h0 b) rfl]; rfl
          leaves := by rw [h2.leaves, leafCount_withChild h hp ht rfl]
          holds := fun y => by rw [h2.holds, holdsSym_withChild h hp ht rfl] }
    · rw [h3]
      simp only [hk, List.length_cons]
      omega
    · intro i hi hip
      rw [h4 i (by simp only [hk]; omega) (by omega)]
      simp only
      rw [memRead_withChild, if_neg hip, if_neg (by omega)]
    · have hp1 : s.nfree.toNat = p.toNat + 1 := by rw [hpn]; exact toNat_succ_nfree (by omega)
      intro j hj
      cases j with
      | zero =>
        rw [Nat.add_zero, h4 p.toNat (by simp only [hk]; omega) (by omega)]
        simp only
        rw [memRead_withChild, if_pos rfl, he, hpn]
        rfl
      | succ j =>
        have := h5 j (by rw [List.length_cons] at hj; omega)
        rw [hp1] at this
        rw [show p.toNat + (j + 1) = p.toNat + 1 + j by omega, this, newNodes, List.getElem?_cons_succ, hpn]

/-- The insertion of a code, from a node `p` of the finished tree on the path `u`: either the code conflicts with the
table, MalformedCodeTable is raised and nothing has been written, or it does not and the entry is added (R124,
R125). -/
theorem insertCode_spec (sym : Byte) (bs : BitString) (p : NodeIndex) (s : State) (u : BitString)
    (h : Growing s.mem s.nfree.toNat 0) (hpk : p.toNat < s.nfree.toNat) (hu : follow s.mem 0 u = some p)
    (hne : u ++ bs ≠ []) (hroom : s.nfree.toNat + bs.length ≤ 65535) :
    (Conflicts s.mem (u ++ bs) ∧ insertCode sym bs p s = .next (faultEntry .malformedCodeTable s)) ∨
    (¬ Conflicts s.mem (u ++ bs) ∧ ∃ t, insertCode sym bs p s = .next t ∧ Inserted sym (u ++ bs) s t ∧
      ∃ d b rest n, divergence s.mem p bs = (d, b :: rest) ∧ memRead s.mem d.toNat = some n ∧
        memRead t.mem d.toNat = some (n.setChild b s.nfree) ∧
        t.nfree.toNat = s.nfree.toNat + (b :: rest).length ∧
        (∀ i < s.nfree.toNat, i ≠ d.toNat → memRead t.mem i = memRead s.mem i) ∧
        ∀ j < (b :: rest).length, memRead t.mem (s.nfree.toNat + j) = (newNodes sym s.nfree rest)[j]?) := by
  induction bs generalizing p u with
  | nil =>
    refine Or.inl ?_
    rw [List.append_nil] at hne ⊢
    obtain ⟨n, hn⟩ := h.read_some hpk
    have hp0 : 0 < p.toNat := by
      rcases List.eq_nil_or_concat u with rfl | ⟨u', b, rfl⟩
      · exact absurd rfl hne
      · obtain ⟨_, _, _, _, _, hz⟩ := follow_concat (by simpa using hu)
        rcases Nat.eq_zero_or_pos p.toNat with hz' | hz'
        · exact absurd (bitVec_eq_of_toNat (by simpa using hz')) hz
        · exact hz'
    by_cases ht : n.tag = .leaf
    · refine ⟨⟨u, n.sym, tableLookup_of hu hn ht, Or.inl (List.prefix_refl _)⟩, ?_⟩
      rw [insertCode, finishEntry, withNode_some _ hn, if_pos ht]
      rfl
    · have hk : n.c0 ≠ 0 ∨ n.c1 ≠ 0 := by
        rw [← children_some_iff]
        exact (h.used _ n hn hp0 (by omega)).resolve_left ht
      constructor
      · obtain ⟨v, i, n', hv, hi, ht'⟩ := h.leaf_below p hp0 hpk
        refine ⟨u ++ v, n'.sym, tableLookup_of (by rw [follow_append, hu]; exact hv) hi ht', Or.inr ?_⟩
        exact List.prefix_append _ _
      · rw [insertCode, finishEntry, withNode_some _ hn, if_neg ht, if_pos hk]
        rfl
  | cons b bs ih =>
    rw [List.length_cons] at hroom
    obtain ⟨n, hn⟩ := h.read_some hpk
    by_cases ht : n.tag = .leaf
    · refine Or.inl ⟨⟨u, n.sym, tableLookup_of hu hn ht, Or.inl (List.prefix_append _ _)⟩, ?_⟩
      rw [insertCode, withNode_some _ hn, if_pos ht]
      rfl
    · have hti : n.tag = .internal := by
        cases htag : n.tag with
        | internal => rfl
        | leaf => exact absurd htag ht
      by_cases hc : n.child b = 0
      · refine Or.inr ⟨?_, ?_⟩
        · rintro ⟨v, y, hv, hpre⟩
          obtain ⟨i, o, hf, ho, hot, _⟩ := tableLookup_some hv
          have hoc := h.leafChildless _ o ho hot
          have dead : ∀ w, follow s.mem 0 (u ++ b :: w) = none := by
            intro w
            rw [follow_append, hu, Option.bind_some, follow_cons b w hn, if_pos hc]
          rcases hpre with ⟨w, hw⟩ | ⟨w, hw⟩
          · rcases List.append_eq_append_iff.1 hw with ⟨a', ha1, ha2⟩ | ⟨a', ha1, ha2⟩
            · /- v is a prefix of u -/
              subst ha1
              rw [follow_append, hf, Option.bind_some] at hu
              have := follow_childless ho hoc hu
              subst this
              cases hu
              rw [hn] at ho
              cases ho
              exact ht hot
            · cases a' with
              | nil =>
                rw [List.append_nil] at ha1
                subst ha1
                rw [hu] at hf
                cases hf
                rw [hn] at ho
                cases ho
                exact ht hot
              | cons b' a' =>
                simp only [List.cons_append, List.cons.injEq] at ha2
                obtain ⟨rfl, _⟩ := ha2
                rw [ha1, dead] at hf
                cases hf
          · rw [← hw, List.append_assoc, List.cons_append, dead] at hf
            cases hf
        · have hk : (s.nfree + 1).toNat = s.nfree.toNat + 1 := toNat_succ_nfree (by omega)
          have hcr : memRead (withChild s.mem p n b s.nfree) s.nfree.toNat = some .emptyInternal := by
            rw [memRead_withChild, if_neg (by omega), if_pos rfl]
          have hg : Growing (withChild s.mem p n b s.nfree) (s.nfree + 1).toNat s.nfree.toNat := by
            rw [hk]
            exact h.withChild (Or.inl rfl) hn hti hc rfl
          obtain ⟨t, h1, h2, h3, h4, h5⟩ := insertCode_fresh sym bs s.nfree
            { s with mem := withChild s.mem p n b s.nfree, nfree := s.nfree + 1 } (u ++ [b]) hg hcr rfl
            child_emptyInternal (by omega) (follow_withChild_new h hn hc rfl hu) (by simp only [hk]; omega) rfl rfl
          refine ⟨t, ?_, ?_, p, b, bs, n, ?_, hn, ?_, ?_, ?_, h5⟩
          · rw [insertCode, withNode_some _ hn, if_neg ht, if_pos hc, createChild_next h hn]
            exact h1
          · rw [List.append_assoc] at h2
            exact
              { frame := h2.frame
                tree := h2.tree
                table := fun v => by rw [h2.table, tableLookup_withChild h hn hti hc rfl]; rfl
                leaves := by rw [h2.leaves, leafCount_withChild h hn hti rfl]
                holds := fun y => by rw [h2.holds, holdsSym_withChild h hn hti rfl] }
          · rw [divergence, hn]
            exact if_pos hc
          · rw [h4 p.toNat (by simp only [hk]; omega) (by omega)]
            simp only
            rw [memRead_withChild, if_pos rfl]
          · rw [h3]
            simp only [hk, List.length_cons]
            omega
          · intro i hi hip
            rw [h4 i (by simp only [hk]; omega) (by omega)]
            simp only
            rw [memRead_withChild, if_neg hip, if_neg (by omega)]
      · have hu' : follow s.mem 0 (u ++ [b]) = some (n.child b) := by
          rw [follow_append, hu, Option.bind_some, follow_cons b [] hn, if_neg hc]
          rfl
        have := ih (n.child b) (u ++ [b]) (h.childLater _ n b hn hc).2 hu' (by simp) (by omega)
        rw [List.append_assoc, List.singleton_append] at this
        have hi : insertCode sym (b :: bs) p s = insertCode sym bs (n.child b) s := by
          rw [insertCode, withNode_some _ hn, if_neg ht, if_neg hc]
        have hd : divergence s.mem p (b :: bs) = divergence s.mem (n.child b) bs := by
          rw [divergence, hn]
          exact if_neg hc
        rw [hi, hd]
        exact this

end Sys2Proof.Machine
end

