-- ==== Sys2Proof/Laws/Packer.lean ====
section
/-! SUPPORT. What the packer's shared operations do, said once in terms of the packed bits (42_packer.md R132 to
R134): a bit taken in is a bit appended. -/

namespace Sys2Proof.Machine

/-- The low `k` bits of a byte, highest first. -/
def lowBits (x : Byte) (k : Nat) : BitString := (List.range k).map fun j => x.getLsbD (k - 1 - j)

theorem byteBits_eq_lowBits (x : Byte) : byteBits x = lowBits x 8 := rfl

theorem pendingBits_eq_lowBits (s : State) : pendingBits s = lowBits s.acc s.nacc.toNat := rfl

theorem length_byteBits (x : Byte) : (byteBits x).length = 8 := by simp [byteBits]

theorem length_pendingBits (s : State) : (pendingBits s).length = s.nacc.toNat := by simp [pendingBits]

theorem length_flatMap_byteBits (l : List Byte) : (l.flatMap byteBits).length = 8 * l.length := by
  induction l with
  | nil => rfl
  | cons x l ih => simp only [List.flatMap_cons, List.length_append, length_byteBits, ih, List.length_cons]; omega

theorem length_packedBits (s : State) : (packedBits s).length = 8 * s.out.length + s.nacc.toNat := by
  rw [packedBits, List.length_append, length_flatMap_byteBits, length_pendingBits]

theorem length_codeBits (len : Byte) (code : List Byte) : (codeBits len code).length = len.toNat := by
  simp [codeBits]

/-- The bit that enters is the lowest, the others move up by one (R132). -/
theorem getLsbD_shiftIn (acc : Byte) (b : Bool) (i : Nat) :
    (shiftIn acc b).getLsbD i = if i = 0 then b else (decide (i < 8) && acc.getLsbD (i - 1)) := by
  unfold shiftIn
  rw [BitVec.getLsbD_concat]
  cases i with
  | zero => simp
  | succ i =>
    simp only [Nat.succ_ne_zero, if_false, BitVec.getLsbD_setWidth, Nat.add_sub_cancel]
    congr 1
    simp
    omega

theorem shiftIn_toNat_lt {acc : Byte} {n : Nat} (b : Bool) (h : acc.toNat < 2 ^ n) :
    (shiftIn acc b).toNat < 2 ^ (n + 1) := by
  unfold shiftIn
  rw [BitVec.toNat_concat, BitVec.toNat_setWidth]
  have h1 : acc.toNat % 2 ^ 7 ≤ acc.toNat := Nat.mod_le _ _
  have h2 : b.toNat ≤ 1 := Bool.toNat_le b
  have h3 : 2 ^ (n + 1) = 2 * 2 ^ n := by ring
  omega

/-- The pending bits after one bit has entered. -/
theorem lowBits_shiftIn (acc : Byte) (b : Bool) {n : Nat} (h : n < 8) :
    lowBits (shiftIn acc b) (n + 1) = lowBits acc n ++ [b] := by
  unfold lowBits
  rw [List.range_succ, List.map_append]
  congr 1
  · apply List.map_congr_left
    intro j hj
    have hj := List.mem_range.1 hj
    rw [getLsbD_shiftIn, if_neg (by omega), show n + 1 - 1 - j - 1 = n - 1 - j by omega]
    simp
    omega
  · simp [getLsbD_shiftIn]

/-- One turn of PCODE's loop appends its bit to the packed bits. -/
theorem packedBits_packBit (b : Bool) (s : State) : packedBits (packBit b s) = packedBits s ++ [b] := by
  have hn := s.nacc.isLt
  unfold packBit
  split
  · rename_i h
    have h7 : s.nacc.toNat = 7 := by omega
    simp only [packedBits, pendingBits_eq_lowBits, emit_out, List.flatMap_append, List.flatMap_cons, List.flatMap_nil,
      byteBits_eq_lowBits, lowBits_shiftIn s.acc b (show 7 < 8 by decide), h7]
    simp [lowBits]
  · rename_i h
    have : (s.nacc + 1).toNat = s.nacc.toNat + 1 := by
      rw [BitVec.toNat_add]; simp; omega
    simp only [packedBits, pendingBits_eq_lowBits, this, lowBits_shiftIn s.acc b hn, List.append_assoc]

theorem nacc_packBit (b : Bool) (s : State) : (packBit b s).nacc.toNat = (s.nacc.toNat + 1) % 8 := by
  unfold packBit
  split
  · rename_i h
    rw [h]
    rfl
  · simp only [BitVec.toNat_add]
    simp

theorem accHigh_packBit (b : Bool) {s : State} (h : s.acc.toNat < 2 ^ s.nacc.toNat) :
    (packBit b s).acc.toNat < 2 ^ (packBit b s).nacc.toNat := by
  have hn := s.nacc.isLt
  rw [nacc_packBit]
  unfold packBit
  split
  · simp [*]
  · rw [Nat.mod_eq_of_lt (by omega)]
    exact shiftIn_toNat_lt b h

/-- What one turn of the loop leaves alone. -/
theorem packBit_frame (b : Bool) (s : State) :
    packBit b s = { s with acc := (packBit b s).acc, nacc := (packBit b s).nacc, out := (packBit b s).out } := by
  unfold packBit
  split <;> rfl

theorem packBit_out_prefix (b : Bool) (s : State) : s.out <+: (packBit b s).out := by
  unfold packBit
  split
  · exact List.prefix_append _ _
  · exact List.prefix_refl _

/-- PCODE's whole loop: the bits are appended in order; only `acc`, `nacc` and `out` change. -/
theorem packBits_spec (bs : BitString) (s : State) :
    packedBits (packBits bs s) = packedBits s ++ bs ∧
    (packBits bs s).nacc.toNat = (s.nacc.toNat + bs.length) % 8 ∧
    (s.acc.toNat < 2 ^ s.nacc.toNat → (packBits bs s).acc.toNat < 2 ^ (packBits bs s).nacc.toNat) ∧
    s.out <+: (packBits bs s).out ∧
    packBits bs s = { s with
      acc := (packBits bs s).acc, nacc := (packBits bs s).nacc, out := (packBits bs s).out } := by
  induction bs generalizing s with
  | nil =>
    have := s.nacc.isLt
    simp only [packBits, List.append_nil, List.length_nil, Nat.add_zero, true_and]
    exact ⟨by omega, id, List.prefix_refl _, trivial⟩
  | cons b bs ih =>
    obtain ⟨h1, h2, h3, h4, h5⟩ := ih (packBit b s)
    have hf := packBit_frame b s
    simp only [packBits]
    refine ⟨?_, ?_, fun h => h3 (accHigh_packBit b h), (packBit_out_prefix b s).trans h4, ?_⟩
    · rw [h1, packedBits_packBit, List.append_assoc]
      rfl
    · rw [h2, nacc_packBit, List.length_cons]
      omega
    · rw [h5]
      rw [hf]

/-- PEND's byte (R133): the pending bits first, zeros after them. -/
theorem byteBits_flush (s : State) :
    byteBits (s.acc <<< (8 - s.nacc.toNat)) = pendingBits s ++ List.replicate (8 - s.nacc.toNat) false := by
  have hn := s.nacc.isLt
  apply List.ext_getElem
  · simp [length_byteBits, length_pendingBits]
    omega
  · intro j hj _
    rw [length_byteBits] at hj
    simp only [List.getElem_append, length_pendingBits]
    split
    · simp only [byteBits, pendingBits, List.getElem_map, List.getElem_range, BitVec.getLsbD_shiftLeft]
      rw [show 7 - j - (8 - s.nacc.toNat) = s.nacc.toNat - 1 - j by omega]
      simp
      omega
    · simp only [byteBits, List.getElem_map, List.getElem_range, BitVec.getLsbD_shiftLeft, List.getElem_replicate]
      simp
      omega

end Sys2Proof.Machine
end

