-- ==== Sys2Proof/Laws/Step.lean ====
section
/-! SUPPORT. What a step and an execution are, said once: every command is its rule under dispatch, and a step accepts
one host event. -/

namespace Sys2Proof.Machine

/-- The rule of a command, which dispatch guards (R110). -/
def rule : Instr → State → Result
  | .nop, s => .next s
  | .clr, s => .next (clearAll s)
  | .pstart, s => .next { clearOperation s with fsm := .pack }
  | .pcode len code, s =>
    if len = 0 then raise .corruptContainer s
    else if s.bitcnt.toNat + len.toNat > Config.maxBitCount then raise .bitCountOverflow s
    else .next { packBits (codeBits len code) s with
      bitcnt := (packBits (codeBits len code) s).bitcnt + len.setWidth 32 }
  | .pend, s =>
    if s.nacc = 0 then .next { s with fsm := .done }
    else .next { emit (s.acc <<< (8 - s.nacc.toNat)) s with acc := 0, nacc := 0, fsm := .done }
  | .lstart, s => .next { writeNode 0 .emptyInternal (clearOperation s) with nfree := 1, fsm := .load }
  | .lentry sym len code, s =>
    if len = 0 then raise .corruptContainer s
    else if s.seen.getLsbD sym.toNat then raise .malformedCodeTable s
    else insertCode sym (codeBits len code) 0 s
  | .dstart n, s =>
    if s.nent = 0 ∧ n ≠ 0 then raise .emptyAlphabet s
    else .next { s with rem := n, cur := 0, fsm := .decode }
  | .dbyte b, s =>
    if s.rem = 0 then raise .corruptContainer s
    else walkBits (payloadBits b s.rem) s
  | .dend, s =>
    if s.rem ≠ 0 then raise .truncatedPayload s
    else .next { s with fsm := .done }
  | .illegal _, s => raise .illegalCommand s

theorem exec_eq_dispatch (i : Instr) (s : State) : exec i s = dispatch i (rule i) s := by
  cases i <;> rfl

/-- Outside FAULT a legal command does what its rule says. -/
theorem exec_legal {i : Instr} {s : State} (hf : s.fsm ≠ .fault) (hl : legal i s.fsm = true) : exec i s = rule i s := by
  rw [exec_eq_dispatch, dispatch_legal _ hf hl]

theorem exec_illegal {i : Instr} {s : State} (hf : s.fsm ≠ .fault) (hl : legal i s.fsm = false) :
    exec i s = .next (faultEntry .illegalCommand s) := by
  rw [exec_eq_dispatch, dispatch_illegal _ hf hl]

theorem exec_fault {i : Instr} {s : State} (hi : i ≠ .clr) (hf : s.fsm = .fault) : exec i s = .next s := by
  rw [exec_eq_dispatch, dispatch_fault _ hi hf]

/-- All that an execution can do. -/
theorem exec_cases (i : Instr) (s : State) :
    (i ≠ .clr ∧ s.fsm = .fault ∧ exec i s = .next s) ∨
    (s.fsm ≠ .fault ∧ legal i s.fsm = false ∧ exec i s = .next (faultEntry .illegalCommand s)) ∨
    ((i = .clr ∨ s.fsm ≠ .fault) ∧ legal i s.fsm = true ∧ exec i s = rule i s) := by
  rw [exec_eq_dispatch]
  exact dispatch_cases i (rule i) s

/-- All that a step can do: nothing to accept, hardware reset, a byte that joins the buffer, or a byte that completes a
command, which is executed. -/
theorem step_cases (s : State) :
    (s.inputs = [] ∧ step s = .next s) ∨
    (∃ later, s.inputs = .reset :: later ∧ step s = .next (hardReset { s with inputs := later })) ∨
    (∃ b later, s.inputs = .byte b :: later ∧ decode (s.cbuf ++ [b]) = .reject .incomplete ∧
      step s = .next { s with cbuf := s.cbuf ++ [b], inputs := later }) ∨
    (∃ b later i rest, s.inputs = .byte b :: later ∧ decode (s.cbuf ++ [b]) = .command i rest ∧
      step s = exec i { s with cbuf := rest, inputs := later }) := by
  cases hi : s.inputs with
  | nil => exact Or.inl ⟨rfl, by simp [step, fetch, hi]⟩
  | cons e later =>
    cases e with
    | reset => exact Or.inr (Or.inl ⟨later, rfl, by simp [step, fetch, hi]⟩)
    | byte b =>
      refine Or.inr (Or.inr ?_)
      cases hd : decode (s.cbuf ++ [b]) with
      | reject w =>
        cases w
        exact Or.inl ⟨b, later, rfl, hd, by simp [step, fetch, hi, acceptByte, hd]⟩
      | command i rest => exact Or.inr ⟨b, later, i, rest, rfl, hd, by simp [step, fetch, hi, acceptByte, hd]⟩

end Sys2Proof.Machine
end

