-- ==== Sys2Proof/Laws/Walk.lean ====
section
/-! SUPPORT. What the walk does (43_unpack_walk.md R142 to R149): it follows the parse of the payload along the denoted
table, and every payload either parses or meets a missing child. -/

namespace Sys2Proof.Machine

variable {m : Memory} {k : Nat}

theorem leafSym_none {p : NodeIndex} {n : NodeWord} (hn : memRead m p.toNat = some n) :
    leafSym m p = none ↔ n.tag = .internal := by
  rw [leafSym, hn]
  cases h : n.tag <;> simp [h]

/-- Every written node is on a path from the root (R36 (c): the nodes form a tree rooted at 0). -/
theorem Growing.path_to (h : Growing m k 0) (p : NodeIndex) (hp : p.toNat < k) : ∃ u, follow m 0 u = some p := by
  generalize hd : p.toNat = d
  induction d using Nat.strong_induction_on generalizing p with
  | _ d ih =>
    rcases Nat.eq_zero_or_pos p.toNat with h0 | h0
    · have : p = 0 := bitVec_eq_of_toNat (by simpa using h0)
      subst this
      exact ⟨[], rfl⟩
    · obtain ⟨q, n, b, hq, hb⟩ := h.parentExists _ hp h0
      have hbp : n.child b = p := bitVec_eq_of_toNat hb
      have hbz : n.child b ≠ 0 := by
        intro hz
        rw [hz] at hb
        simp at hb
        omega
      have hlt := (h.childLater q n b hq hbz).1
      have hq16 : q < 2 ^ 16 := by have := p.isLt; omega
      have hqn : (BitVec.ofNat 16 q).toNat = q := by rw [BitVec.toNat_ofNat]; exact Nat.mod_eq_of_lt hq16
      obtain ⟨u, hu⟩ := ih q (by omega) (BitVec.ofNat 16 q) (by rw [hqn]; exact h.read_lt hq) hqn
      refine ⟨u ++ [b], ?_⟩
      rw [follow_append, hu, Option.bind_some, follow_cons b [] (by rw [hqn]; exact hq), if_neg hbz, hbp]
      rfl

/-- A code of the table that starts a bit-string through an INTERNAL node goes past that node. -/
theorem Growing.code_passes {x : Nat} (h : Growing m k x) {u v w rest : BitString} {p : NodeIndex} {sym : Byte}
    (hu : follow m 0 u = some p) (hp : leafSym m p = none) (hw : tableLookup m w = some sym)
    (he : w ++ rest = u ++ v) : ∃ b v', v = b :: (v' ++ rest) ∧ w = u ++ b :: v' := by
  obtain ⟨i, o, hf, ho, hot, _⟩ := tableLookup_some hw
  have hoc := h.leafChildless _ o ho hot
  have hne : ∀ q, follow m 0 w = some q → q ≠ p := by
    rintro q hq rfl
    rw [hf] at hq
    cases hq
    rw [leafSym_none ho, hot] at hp
    cases hp
  rcases List.append_eq_append_iff.1 he with ⟨a, ha, _⟩ | ⟨a, ha, hb⟩
  · subst ha
    rw [follow_append, hf, Option.bind_some] at hu
    have := follow_childless ho hoc hu
    subst this
    cases hu
    exact absurd rfl (hne p hf)
  · cases a with
    | nil =>
      rw [List.append_nil] at ha
      subst ha
      exact absurd rfl (hne p hu)
    | cons b a => exact ⟨b, a, by simpa using hb, ha⟩

/-- One walk step from the node at the end of `u`, when what lies ahead parses (R145). -/
theorem Growing.parses_cons (h : Growing m k 0) {u bits : BitString} {b : Bool} {p : NodeIndex} {n : NodeWord}
    {syms : List Byte} {i : NodeIndex} (hu : follow m 0 u = some p) (hn : memRead m p.toNat = some n)
    (hp : leafSym m p = none) (hparse : Parses m (u ++ b :: bits) syms i) :
    n.child b ≠ 0 ∧ ∃ c, memRead m (n.child b).toNat = some c ∧ follow m 0 (u ++ [b]) = some (n.child b) ∧
      ((c.tag = .leaf ∧ ∃ syms', syms = c.sym :: syms' ∧ Parses m bits syms' i) ∨
        (c.tag = .internal ∧ Parses m ((u ++ [b]) ++ bits) syms i)) := by
  have ext : ∀ w, follow m 0 (u ++ b :: w) = if n.child b = 0 then none else follow m (n.child b) w := by
    intro w
    rw [follow_append, hu, Option.bind_some, follow_cons b w hn]
  have hc : n.child b ≠ 0 := by
    intro hz
    generalize hU : u ++ b :: bits = U at hparse
    cases hparse with
    | rest _ _ hf _ => rw [← hU, ext, if_pos hz] at hf; cases hf
    | code w sym rest syms' _ hw _ =>
      obtain ⟨b', v', hv, hwu⟩ := h.code_passes hu hp hw hU.symm
      simp only [List.cons.injEq] at hv
      obtain ⟨rfl, _⟩ := hv
      obtain ⟨_, _, hf, _⟩ := tableLookup_some hw
      rw [hwu, ext, if_pos hz] at hf
      cases hf
  refine ⟨hc, ?_⟩
  obtain ⟨c, hcr⟩ := h.read_some (h.childLater _ n b hn hc).2
  have hf1 : follow m 0 (u ++ [b]) = some (n.child b) := by rw [ext, if_neg hc]; rfl
  refine ⟨c, hcr, hf1, ?_⟩
  cases hct : c.tag with
  | internal => exact Or.inr ⟨rfl, by rwa [List.append_assoc]⟩
  | leaf =>
    refine Or.inl ⟨rfl, ?_⟩
    have hcc := h.leafChildless _ c hcr hct
    generalize hU : u ++ b :: bits = U at hparse
    cases hparse with
    | rest _ _ hf hi =>
      rw [← hU, ext, if_neg hc] at hf
      have := follow_childless hcr hcc hf
      subst this
      cases hf
      rw [leafSym_none hcr, hct] at hi
      cases hi
    | code w sym rest syms' _ hw hrest =>
      obtain ⟨b', v', hv, hwu⟩ := h.code_passes hu hp hw hU.symm
      simp only [List.cons.injEq] at hv
      obtain ⟨rfl, hbits⟩ := hv
      obtain ⟨q, o, hf, ho, hot, hos⟩ := tableLookup_some hw
      rw [hwu, ext, if_neg hc] at hf
      have := follow_childless hcr hcc hf
      subst this
      cases hf
      rw [hcr] at ho
      cases ho
      exact ⟨syms', by rw [hos], by rw [hbits]; exact hrest⟩

/-- A parse that ends where it is has no symbols. -/
theorem Growing.parses_here {x : Nat} (h : Growing m k x) {u : BitString} {p : NodeIndex} {syms : List Byte} {i : NodeIndex}
    (hu : follow m 0 u = some p) (hp : leafSym m p = none) (hparse : Parses m u syms i) : syms = [] ∧ i = p := by
  generalize hU : u = U at hparse
  cases hparse with
  | rest _ _ hf _ =>
    subst hU
    rw [hu] at hf
    cases hf
    exact ⟨rfl, rfl⟩
  | code w sym rest syms' _ hw _ =>
    obtain ⟨b, v', hv, _⟩ := h.code_passes (v := []) (rest := rest) hu hp hw (by rw [List.append_nil]; exact hU.symm)
    cases hv

/-- Every bit-string from a node inside the tree parses, or its walk meets a missing child (R148). -/
theorem Growing.parses_or_missing (h : Growing m k 0) (hk : 0 < k) (bits : BitString) {u : BitString} {p : NodeIndex}
    {n : NodeWord} (hu : follow m 0 u = some p) (hn : memRead m p.toNat = some n) (ht : n.tag = .internal) :
    (∃ syms i, Parses m (u ++ bits) syms i) ∨
      ∃ v b rest syms i n', bits = v ++ b :: rest ∧ Parses m (u ++ v) syms i ∧ memRead m i.toNat = some n' ∧
        n'.child b = 0 := by
  induction bits generalizing u p n with
  | nil =>
    refine Or.inl ⟨[], p, ?_⟩
    rw [List.append_nil]
    exact .rest u p hu ((leafSym_none hn).2 ht)
  | cons b bits ih =>
    by_cases hc : n.child b = 0
    · refine Or.inr ⟨[], b, bits, [], p, n, rfl, ?_, hn, hc⟩
      rw [List.append_nil]
      exact .rest u p hu ((leafSym_none hn).2 ht)
    · have hf : follow m 0 (u ++ [b]) = some (n.child b) := by
        rw [follow_append, hu, Option.bind_some, follow_cons b [] hn, if_neg hc]
        rfl
      obtain ⟨c, hcr⟩ := h.read_some (h.childLater _ n b hn hc).2
      cases hct : c.tag with
      | internal =>
        rcases ih hf hcr hct with ⟨syms, i, hp⟩ | ⟨v, b', rest, syms, i, n', hb, hp, hr, hz⟩
        · rw [List.append_assoc] at hp
          exact Or.inl ⟨syms, i, hp⟩
        · rw [List.append_assoc] at hp
          exact Or.inr ⟨b :: v, b', rest, syms, i, n', by rw [hb]; rfl, hp, hr, hz⟩
      | leaf =>
        have hl := tableLookup_of hf hcr hct
        obtain ⟨r, hr0⟩ := h.read_some hk
        rcases ih (u := []) (p := 0) rfl hr0 (h.root r hr0) with ⟨syms, i, hp⟩ | ⟨v, b', rest, syms, i, n', hb, hp, hr, hz⟩
        · refine Or.inl ⟨c.sym :: syms, i, ?_⟩
          have := Parses.code _ _ _ _ _ hl hp
          rwa [List.append_assoc] at this
        · refine Or.inr ⟨b :: v, b', rest, c.sym :: syms, i, n', by rw [hb]; rfl, ?_, hr, hz⟩
          have := Parses.code _ _ _ _ _ hl hp
          rwa [List.append_assoc] at this

/-- The node a parse ends on is INTERNAL. -/
theorem Parses.end_internal {bits : BitString} {syms : List Byte} {i : NodeIndex} (h : Parses m bits syms i) :
    leafSym m i = none ∧ ∃ v, follow m 0 v = some i := by
  induction h with
  | rest v i hf hi => exact ⟨hi, v, hf⟩
  | code _ _ _ _ _ _ _ ih => exact ih

theorem toNat_sub_one {r : BitCount} (h : 0 < r.toNat) : (r - 1).toNat = r.toNat - 1 := by
  have := r.isLt
  rw [BitVec.toNat_sub]
  simp
  omega

/-- A walk step onto a LEAF (R145). -/
theorem walkBits_leaf {b : Bool} {bits : BitString} {s : State} {n c : NodeWord}
    (hn : memRead s.mem s.cur.toNat = some n) (hz : n.child b ≠ 0)
    (hc : memRead s.mem (n.child b).toNat = some c) (ht : c.tag = .leaf) :
    walkBits (b :: bits) s = walkBits bits { s with rem := s.rem - 1, cur := 0, out := s.out ++ [c.sym] } := by
  simp only [walkBits, walkStep, withNode, hn, hc, if_neg hz, if_pos ht]
  rfl

/-- A walk step onto an INTERNAL node (R145). -/
theorem walkBits_inner {b : Bool} {bits : BitString} {s : State} {n c : NodeWord}
    (hn : memRead s.mem s.cur.toNat = some n) (hz : n.child b ≠ 0)
    (hc : memRead s.mem (n.child b).toNat = some c) (ht : c.tag = .internal) :
    walkBits (b :: bits) s = walkBits bits { s with rem := s.rem - 1, cur := n.child b } := by
  have hl : c.tag ≠ .leaf := by rw [ht]; exact Tag.noConfusion
  simp only [walkBits, walkStep, withNode, hn, hc, if_neg hz, if_neg hl]

/-- A walk step to a missing child: the bit is counted and CorruptContainer raised (R149). -/
theorem walkBits_missing {b : Bool} {rest : BitString} {s : State} {n : NodeWord}
    (hn : memRead s.mem s.cur.toNat = some n) (hz : n.child b = 0) :
    walkBits (b :: rest) s = .next (faultEntry .corruptContainer { s with rem := s.rem - 1 }) := by
  simp only [walkBits, walkStep, withNode, hn, if_pos hz]
  rfl

/-- The walk over bits that parse: the symbols are emitted, the cursor ends where the parse ends, `rem` counts the
bits; the walk goes on from there with whatever follows. -/
theorem walkBits_parses (bits more : BitString) (s : State) (u : BitString) (syms : List Byte) (i : NodeIndex)
    (h : Growing s.mem s.nfree.toNat 0) (hk : 0 < s.nfree.toNat) (hu : follow s.mem 0 u = some s.cur)
    (hcur : leafSym s.mem s.cur = none) (hrem : bits.length ≤ s.rem.toNat) (hp : Parses s.mem (u ++ bits) syms i) :
    walkBits (bits ++ more) s =
      walkBits more { s with rem := s.rem - BitVec.ofNat 32 bits.length, cur := i, out := s.out ++ syms } := by
  induction bits generalizing s u syms with
  | nil =>
    rw [List.append_nil] at hp
    obtain ⟨rfl, rfl⟩ := h.parses_here hu hcur hp
    simp
  | cons b bits ih =>
    have hck : s.cur.toNat < s.nfree.toNat := h.follow_read (by simpa using hk) hu
    obtain ⟨n, hn⟩ := h.read_some hck
    obtain ⟨hc, c, hcr, hf, hcase⟩ := h.parses_cons hu hn hcur hp
    have hr1 := toNat_sub_one (r := s.rem) (by rw [List.length_cons] at hrem; omega)
    have hsub : s.rem - 1 - BitVec.ofNat 32 bits.length = s.rem - BitVec.ofNat 32 (b :: bits).length := by
      rw [List.length_cons, BitVec.ofNat_add, BitVec.sub_sub, BitVec.add_comm]
      rfl
    rw [List.length_cons] at hrem
    rw [List.cons_append]
    rcases hcase with ⟨ht, syms', rfl, hp'⟩ | ⟨ht, hp'⟩
    · rw [walkBits_leaf hn hc hcr ht]
      obtain ⟨r, hr0⟩ := h.read_some hk
      have hroot : leafSym s.mem 0 = none := (leafSym_none (p := 0) hr0).2 (h.root r hr0)
      rw [ih { s with rem := s.rem - 1, cur := 0, out := s.out ++ [c.sym] } [] syms' h hk rfl hroot
        (by simp only [hr1]; omega) hp']
      simp only [hsub, List.append_assoc, List.singleton_append]
    · rw [walkBits_inner hn hc hcr ht]
      rw [ih { s with rem := s.rem - 1, cur := n.child b } (u ++ [b]) syms h hk hf ((leafSym_none hcr).2 ht)
        (by simp only [hr1]; omega) hp']
      simp only [hsub]

/-- All a walk can do: it answers a next state in which only the phase, `err`, `rem`, `cur` and `out` may differ. -/
theorem walkBits_next (bits : BitString) (s : State) (h : Growing s.mem s.nfree.toNat 0)
    (hk : 0 < s.nfree.toNat) (hcur : ∃ n, memRead s.mem s.cur.toNat = some n ∧ n.tag = .internal)
    (hrem : bits.length ≤ s.rem.toNat) :
    ∃ t, walkBits bits s = .next t ∧ s.out <+: t.out ∧
      t = { s with fsm := t.fsm, err := t.err, rem := t.rem, cur := t.cur, out := t.out } ∧
      ((t.fsm = .fault ∧ t.err = some .corruptContainer) ∨
        (t.fsm = s.fsm ∧ t.err = s.err ∧ t.rem.toNat = s.rem.toNat - bits.length ∧ (t.rem = 0 → t.cur = 0) ∧
          ∃ n, memRead t.mem t.cur.toNat = some n ∧ n.tag = .internal)) := by
  induction bits generalizing s with
  | nil =>
    rw [walkBits]
    split
    · exact ⟨_, rfl, List.prefix_refl _, rfl, Or.inl ⟨rfl, rfl⟩⟩
    · rename_i hn
      refine ⟨_, rfl, List.prefix_refl _, rfl, Or.inr ⟨rfl, rfl, rfl, ?_, hcur⟩⟩
      intro hz
      by_contra hc
      exact hn ⟨hz, hc⟩
  | cons b bits ih =>
    rw [List.length_cons] at hrem
    obtain ⟨n, hn, ht⟩ := hcur
    have hr1 := toNat_sub_one (r := s.rem) (by omega)
    by_cases hc : n.child b = 0
    · rw [walkBits_missing hn hc]
      exact ⟨_, rfl, List.prefix_refl _, rfl, Or.inl ⟨rfl, rfl⟩⟩
    · obtain ⟨c, hcr⟩ := h.read_some (h.childLater _ n b hn hc).2
      cases hct : c.tag with
      | leaf =>
        rw [walkBits_leaf hn hc hcr hct]
        obtain ⟨r, hr0⟩ := h.read_some hk
        obtain ⟨t, h1, h2, h3, h4⟩ := ih { s with rem := s.rem - 1, cur := 0, out := s.out ++ [c.sym] } h hk
          ⟨r, hr0, h.root r hr0⟩ (by simp only [hr1]; omega)
        refine ⟨t, h1, (List.prefix_append s.out [c.sym]).trans h2, h3, ?_⟩
        simpa only [hr1, List.length_cons, Nat.sub_sub, Nat.add_comm 1] using h4
      | internal =>
        rw [walkBits_inner hn hc hcr hct]
        obtain ⟨t, h1, h2, h3, h4⟩ := ih { s with rem := s.rem - 1, cur := n.child b } h hk ⟨c, hcr, hct⟩
          (by simp only [hr1]; omega)
        refine ⟨t, h1, h2, h3, ?_⟩
        simpa only [hr1, List.length_cons, Nat.sub_sub, Nat.add_comm 1] using h4

end Sys2Proof.Machine
end

