-- ==== Sys2Proof/Laws/Invariant.lean ====
section
/-! SUPPORT. The invariant of R36 under each shared operation and under each command's own rule, with what LENTRY and DBYTE
can do from a state that has it. -/

namespace Sys2Proof.Machine

/-- No node at all is a tree of no nodes. -/
theorem emptyTree : TreeOk [] 0 := by constructor <;> decide

/-- Fault entry keeps the invariant (R170). -/
theorem inv_faultEntry {s : State} (k : ErrorKind) (h : Invariant s) : Invariant (faultEntry k s) where
  errIffFault := by simp
  idle := by simp
  packing := by simp
  packed := by simp
  accHigh := h.accHigh
  flushed := by simp
  noBitcnt := h.noBitcnt
  noRem := by simp
  loaded := by simp
  noTable := by simp
  tree := h.tree
  leaves := h.leaves
  seenMarks := h.seenMarks
  seenLeaf := h.seenLeaf
  allocated := h.allocated
  cursor := by simp
  framing := h.framing

/-- A cleared operation in IDLE or PACK has the invariant (R39, R131). -/
theorem inv_cleared {s : State} (p : Phase) (hp : p = .idle ∨ p = .pack) (h : decode s.cbuf = .reject .incomplete) :
    Invariant { clearOperation s with fsm := p, err := none } where
  errIffFault := by rcases hp with rfl | rfl <;> simp
  idle := by rcases hp with rfl | rfl <;> simp [clearAll, clearOperation, State.reset]
  packing := by rcases hp with rfl | rfl <;> simp
  packed := by rcases hp with rfl | rfl <;> simp
  accHigh := by simp
  flushed := by simp
  noBitcnt := by simp
  noRem := by simp
  loaded := by rcases hp with rfl | rfl <;> simp
  noTable := by simp
  tree := emptyTree
  leaves := rfl
  seenMarks := seenCount_zero
  seenLeaf := by intro sym; simp
  allocated := by simp
  cursor := by rcases hp with rfl | rfl <;> simp
  framing := h

/-- CLR (R113). -/
theorem inv_clearAll {s : State} (h : decode s.cbuf = .reject .incomplete) : Invariant (clearAll s) :=
  inv_cleared .idle (Or.inl rfl) h

/-- Hardware reset (R190). -/
theorem inv_hardReset (s : State) : Invariant (hardReset s) :=
  inv_cleared (s := hardReset s) .idle (Or.inl rfl) rfl

theorem err_none {s : State} (h : Invariant s) (hf : s.fsm ≠ .fault) : s.err = none := h.errIffFault.2 hf

/-- PSTART (R131). -/
theorem inv_pstart {s : State} (h : Invariant s) (hf : s.fsm ≠ .fault) :
    Invariant { clearOperation s with fsm := .pack } := by
  have := inv_cleared .pack (Or.inr rfl) h.framing
  have he := err_none h hf
  unfold clearOperation at *
  rw [he]
  exact this

/-- The empty root alone is a tree. -/
theorem rootTree : TreeOk [(0, .emptyInternal)] 1 := by
  constructor <;> decide

/-- LSTART (R121). -/
theorem inv_lstart {s : State} (h : Invariant s) (hf : s.fsm ≠ .fault) :
    Invariant { writeNode 0 .emptyInternal (clearOperation s) with nfree := 1, fsm := .load } where
  errIffFault := by simp [err_none h hf]
  idle := by simp
  packing := by simp
  packed := by simp
  accHigh := by simp
  flushed := by simp
  noBitcnt := by simp
  noRem := by simp
  loaded := by simp
  noTable := by simp
  tree := rootTree
  leaves := rfl
  seenMarks := seenCount_zero
  seenLeaf := by intro sym; simp [memWrite, NodeWord.emptyInternal]
  allocated := by simp
  cursor := by simp
  framing := h.framing

/-- PCODE (R132). -/
theorem inv_pcode {s : State} (h : Invariant s) (hp : s.fsm = .pack) (len : Byte) (code : List Byte)
    (hs : s.bitcnt.toNat + len.toNat ≤ 2 ^ 32 - 1) :
    Invariant { packBits (codeBits len code) s with
      bitcnt := (packBits (codeBits len code) s).bitcnt + len.setWidth 32 } := by
  obtain ⟨h1, h2, h3, h4, h5⟩ := packBits_spec (codeBits len code) s
  rw [length_codeBits] at h2
  have hlen := congrArg List.length h1
  rw [List.length_append, length_packedBits, length_packedBits, length_codeBits] at hlen
  have h3 := h3 h.accHigh
  obtain ⟨hp1, hp2⟩ := h.packing hp
  generalize ha : (packBits (codeBits len code) s).acc = a at *
  generalize hn : (packBits (codeBits len code) s).nacc = n at *
  generalize ho : (packBits (codeBits len code) s).out = o at *
  rw [h5]
  have hbc : (s.bitcnt + len.setWidth 32).toNat = s.bitcnt.toNat + len.toNat := by
    have := len.isLt
    rw [BitVec.toNat_add, BitVec.toNat_setWidth]
    rw [Nat.mod_eq_of_lt (by omega : len.toNat < 2 ^ 32), Nat.mod_eq_of_lt]
    omega
  exact
  { errIffFault := h.errIffFault
    idle := by simp [hp]
    packing := by
      intro _
      simp only [hbc]
      omega
    packed := by simp [hp]
    accHigh := h3
    flushed := by simp [hp]
    noBitcnt := fun hz => absurd (h.noTable hp) hz
    noRem := h.noRem
    loaded := h.loaded
    noTable := h.noTable
    tree := h.tree
    leaves := h.leaves
    seenMarks := h.seenMarks
    seenLeaf := h.seenLeaf
    allocated := h.allocated
    cursor := h.cursor
    framing := h.framing }

/-- PEND (R133). -/
theorem inv_pend {s : State} (h : Invariant s) (hp : s.fsm = .pack) :
    (s.nacc = 0 → Invariant { s with fsm := .done }) ∧
    (s.nacc ≠ 0 → Invariant { emit (s.acc <<< (8 - s.nacc.toNat)) s with acc := 0, nacc := 0, fsm := .done }) := by
  obtain ⟨hp1, hp2⟩ := h.packing hp
  have herr := err_none h (by rw [hp]; exact Phase.noConfusion)
  have hr := h.noRem (by rw [hp]; exact Phase.noConfusion) (by rw [hp]; exact Phase.noConfusion)
  constructor
  · intro hz
    have ha := h.accHigh
    rw [hz] at ha hp1
    exact
    { errIffFault := by simp [herr]
      idle := by simp
      packing := by simp
      packed := by intro _ _; simp at hp1 ⊢; omega
      accHigh := h.accHigh
      flushed := by
        intro _ _
        refine ⟨hz, BitVec.eq_of_toNat_eq ?_⟩
        simpa using ha
      noBitcnt := h.noBitcnt
      noRem := fun _ _ => hr
      loaded := by simp
      noTable := by simp
      tree := h.tree
      leaves := h.leaves
      seenMarks := h.seenMarks
      seenLeaf := h.seenLeaf
      allocated := h.allocated
      cursor := by simp
      framing := h.framing }
  · intro hz
    have hz' : s.nacc.toNat ≠ 0 := fun hc => hz (BitVec.eq_of_toNat_eq (by simpa using hc))
    exact
    { errIffFault := by simp [herr]
      idle := by simp
      packing := by simp
      packed := by intro _ _; simp; omega
      accHigh := by simp
      flushed := by simp
      noBitcnt := h.noBitcnt
      noRem := fun _ _ => hr
      loaded := by simp
      noTable := by simp
      tree := h.tree
      leaves := h.leaves
      seenMarks := h.seenMarks
      seenLeaf := h.seenLeaf
      allocated := h.allocated
      cursor := by simp
      framing := h.framing }

/-- What LENTRY can do with a length of 1 to 255 and a new symbol (R124, R125): the code is in conflict and nothing but the fault
is written, or the entry is inserted. -/
theorem lentry_spec {s : State} (h : Invariant s) (hp : s.fsm = .load) (sym len : Byte) (code : List Byte)
    (hl : len ≠ 0) (hs : s.seen.getLsbD sym.toNat = false) :
    (Conflicts s.mem (codeBits len code) ∧
      insertCode sym (codeBits len code) 0 s = .next (faultEntry .malformedCodeTable s)) ∨
    (¬ Conflicts s.mem (codeBits len code) ∧ ∃ t, insertCode sym (codeBits len code) 0 s = .next t ∧
      Inserted sym (codeBits len code) s t ∧ t.nent.toNat = s.nent.toNat + 1 ∧
      ∃ d b rest n, divergence s.mem 0 (codeBits len code) = (d, b :: rest) ∧ memRead s.mem d.toNat = some n ∧
        memRead t.mem d.toNat = some (n.setChild b s.nfree) ∧
        t.nfree.toNat = s.nfree.toNat + (b :: rest).length ∧ (b :: rest).length ≤ 255 ∧
        (∀ i < s.nfree.toNat, i ≠ d.toNat → memRead t.mem i = memRead s.mem i) ∧
        ∀ j < (b :: rest).length, memRead t.mem (s.nfree.toNat + j) = (newNodes sym s.nfree rest)[j]?) := by
  have hg := (treeOk_iff_growing _ _).1 h.tree
  have hne : s.nfree ≠ 0 := h.loaded (Or.inl hp)
  have hk : 0 < s.nfree.toNat := by
    rcases Nat.eq_zero_or_pos s.nfree.toNat with hz | hz
    · exact absurd (BitVec.eq_of_toNat_eq (by simpa using hz)) hne
    · exact hz
  have hlt := seenCount_lt hs
  have hm := h.seenMarks
  have hal := h.allocated
  have hlen := len.isLt
  have hl0 : len.toNat ≠ 0 := fun hc => hl (BitVec.eq_of_toNat_eq (by simpa using hc))
  have hcl := length_codeBits len code
  have := insertCode_spec sym (codeBits len code) 0 s [] hg (by simpa using hk) rfl
    (by intro hc; rw [List.nil_append] at hc; rw [hc] at hcl; simp at hcl; omega) (by omega)
  rw [List.nil_append] at this
  rcases this with h1 | ⟨h1, t, h2, h3, d, b, rest, n, h4, h5, h6, h7, h8⟩
  · exact Or.inl h1
  · refine Or.inr ⟨h1, t, h2, h3, ?_, d, b, rest, n, h4, h5, h6, h7, ?_, h8⟩
    · rw [h3.frame]
      simp only
      rw [BitVec.toNat_add]
      simp
      omega
    · -- the suffix is no longer than the code
      have : ∀ (bs : BitString) (p d : NodeIndex) r, divergence s.mem p bs = (d, r) → r.length ≤ bs.length := by
        intro bs
        induction bs with
        | nil => intro p d r hr; simp [divergence] at hr; simp [← hr.2]
        | cons b bs ih =>
          intro p d r hr
          rw [divergence] at hr
          split at hr
          · split at hr
            · cases hr; exact Nat.le_refl _
            · have := ih _ _ _ hr
              simp; omega
          · cases hr; exact Nat.le_refl _
      have := this _ _ _ _ h4
      omega

/-- LENTRY (R124). -/
theorem inv_lentry {s t : State} (h : Invariant s) (hp : s.fsm = .load) (sym len : Byte) (code : List Byte)
    (hl : len ≠ 0) (hs : s.seen.getLsbD sym.toNat = false)
    (he : insertCode sym (codeBits len code) 0 s = .next t) : Invariant t := by
  rcases lentry_spec h hp sym len code hl hs with ⟨_, h1⟩ | ⟨_, t', h1, h2, h3, d, b, rest, n, h4, h5, h6, h7, h8, h9⟩
  · rw [he] at h1
    cases h1
    exact inv_faultEntry _ h
  · rw [he] at h1
    cases h1
    have hnz : t.nfree ≠ 0 := by
      intro hz
      rw [hz] at h7
      simp at h7
    have hf := h2.frame
    have hfl := h.flushed (by rw [hp]; exact Phase.noConfusion) (by rw [hp]; exact Phase.noConfusion)
    have hr := h.noRem (by rw [hp]; exact Phase.noConfusion) (by rw [hp]; exact Phase.noConfusion)
    have e1 : t.fsm = .load := by rw [hf]; exact hp
    have e2 : t.err = s.err := by rw [hf]
    have e3 : t.acc = s.acc := by rw [hf]
    have e4 : t.nacc = s.nacc := by rw [hf]
    have e5 : t.bitcnt = s.bitcnt := by rw [hf]
    have e6 : t.rem = s.rem := by rw [hf]
    have e7 : t.cur = s.cur := by rw [hf]
    have e8 : t.cbuf = s.cbuf := by rw [hf]
    have e9 : t.seen = s.seen ||| BitVec.twoPow 256 sym.toNat := by rw [hf]
    exact
    { errIffFault := by rw [e2, e1, ← hp]; exact h.errIffFault
      idle := by simp [e1]
      packing := by simp [e1]
      packed := by simp [e1]
      accHigh := by rw [e3, e4]; exact h.accHigh
      flushed := by intro _ _; rw [e3, e4]; exact hfl
      noBitcnt := by intro _; rw [e5]; exact h.noBitcnt (h.loaded (Or.inl hp))
      noRem := by intro _ _; rw [e6, e7]; exact hr
      loaded := fun _ => hnz
      noTable := by simp [e1]
      tree := (treeOk_iff_growing _ _).2 h2.tree
      leaves := by rw [h2.leaves, h3, h.leaves]
      seenMarks := by rw [e9, seenCount_mark hs, h.seenMarks, h3]
      seenLeaf := by
        intro y
        rw [← holdsSym_iff h2.tree.sorted, h2.holds, e9, getLsbD_mark,
          holdsSym_iff ((treeOk_iff_growing _ _).1 h.tree).sorted, ← h.seenLeaf]
        simp [BitVec.toNat_inj]
        tauto
      allocated := by have := h.allocated; omega
      cursor := by simp [e1]
      framing := by rw [e8]; exact h.framing }

/-- DSTART (R141). -/
theorem inv_dstart {s : State} (h : Invariant s) (hp : s.fsm = .load) (n : BitCount) :
    Invariant { s with rem := n, cur := 0, fsm := .decode } := by
  have hg := (treeOk_iff_growing _ _).1 h.tree
  have hfl := h.flushed (by rw [hp]; exact Phase.noConfusion) (by rw [hp]; exact Phase.noConfusion)
  have hne : s.nfree ≠ 0 := h.loaded (Or.inl hp)
  have hk : 0 < s.nfree.toNat := by
    rcases Nat.eq_zero_or_pos s.nfree.toNat with hz | hz
    · exact absurd (BitVec.eq_of_toNat_eq (by simpa using hz)) hne
    · exact hz
  obtain ⟨r, hr⟩ := hg.read_some hk
  exact
  { errIffFault := by simp [err_none h (by rw [hp]; exact Phase.noConfusion)]
    idle := by simp
    packing := by simp
    packed := by simp
    accHigh := h.accHigh
    flushed := fun _ _ => hfl
    noBitcnt := h.noBitcnt
    noRem := by simp
    loaded := fun _ => hne
    noTable := by simp
    tree := h.tree
    leaves := h.leaves
    seenMarks := h.seenMarks
    seenLeaf := h.seenLeaf
    allocated := h.allocated
    cursor := by
      intro _
      exact ⟨⟨(0, r), (mem_iff_memRead hg.sorted 0 r).2 hr, rfl, hg.root r hr⟩, fun _ => rfl⟩
    framing := h.framing }

/-- The cursor is on an INTERNAL node (R36 (e)). -/
theorem cursor_read {s : State} (h : Invariant s) (hp : s.fsm = .decode) :
    ∃ n, memRead s.mem s.cur.toNat = some n ∧ n.tag = .internal := by
  have hg := (treeOk_iff_growing _ _).1 h.tree
  obtain ⟨⟨⟨i, n⟩, hc, rfl, ht⟩, _⟩ := h.cursor hp
  exact ⟨n, (mem_iff_memRead hg.sorted _ _).1 hc, ht⟩

theorem nfree_pos {s : State} (h : Invariant s) (hp : s.fsm = .load ∨ s.fsm = .decode) : 0 < s.nfree.toNat := by
  rcases Nat.eq_zero_or_pos s.nfree.toNat with hz | hz
  · exact absurd (BitVec.eq_of_toNat_eq (by simpa using hz)) (h.loaded hp)
  · exact hz

theorem length_payloadBits (b : Byte) (r : BitCount) : (payloadBits b r).length = min 8 r.toNat := by
  simp [payloadBits, payloadCount]

/-- What DBYTE can do with `rem` not 0 (R142): it answers a next state, with the invariant, of which only these fields differ. -/
theorem dbyte_next {s : State} (h : Invariant s) (hp : s.fsm = .decode) (b : Byte) :
    ∃ t, walkBits (payloadBits b s.rem) s = .next t ∧ Invariant t ∧ s.out <+: t.out ∧
      t = { s with fsm := t.fsm, err := t.err, rem := t.rem, cur := t.cur, out := t.out } := by
  have hg := (treeOk_iff_growing _ _).1 h.tree
  obtain ⟨t, h1, h2, h3, h4⟩ := walkBits_next (payloadBits b s.rem) s hg (nfree_pos h (Or.inr hp)) (cursor_read h hp)
    (by rw [length_payloadBits]; omega)
  refine ⟨t, h1, ?_, h2, h3⟩
  have hfl := h.flushed (by rw [hp]; exact Phase.noConfusion) (by rw [hp]; exact Phase.noConfusion)
  have e3 : t.acc = s.acc := by rw [h3]
  have e4 : t.nacc = s.nacc := by rw [h3]
  have e5 : t.bitcnt = s.bitcnt := by rw [h3]
  have e6 : t.nfree = s.nfree := by rw [h3]
  have e7 : t.nent = s.nent := by rw [h3]
  have e8 : t.cbuf = s.cbuf := by rw [h3]
  have e9 : t.seen = s.seen := by rw [h3]
  have e10 : t.mem = s.mem := by rw [h3]
  have hfsm : t.fsm = .fault ∨ t.fsm = .decode := by
    rcases h4 with ⟨h4, _⟩ | ⟨h4, _⟩
    · exact Or.inl h4
    · exact Or.inr (by rw [h4, hp])
  exact
  { errIffFault := by
      rcases h4 with ⟨h4, h5⟩ | ⟨h4, h5, _⟩
      · simp [h4, h5]
      · rw [h4, h5]; exact h.errIffFault
    idle := by rcases hfsm with h | h <;> simp [h]
    packing := by rcases hfsm with h | h <;> simp [h]
    packed := by rcases hfsm with h | h <;> simp [h]
    accHigh := by rw [e3, e4]; exact h.accHigh
    flushed := by rw [e3, e4]; exact fun _ _ => hfl
    noBitcnt := by rw [e5, e6]; exact h.noBitcnt
    noRem := by rcases hfsm with h | h <;> simp [h]
    loaded := by rw [e6]; exact fun _ => h.loaded (Or.inr hp)
    noTable := by rcases hfsm with h | h <;> simp [h]
    tree := by rw [e6, e10]; exact h.tree
    leaves := by rw [e10, e7]; exact h.leaves
    seenMarks := by rw [e9, e7]; exact h.seenMarks
    seenLeaf := by rw [e9, e10]; exact h.seenLeaf
    allocated := by rw [e6, e7]; exact h.allocated
    cursor := by
      intro hd
      rcases h4 with ⟨h4, h5⟩ | ⟨h4, h5, _, hz, n, hn, ht⟩
      · rw [h4] at hd; cases hd
      · refine ⟨⟨(t.cur.toNat, n), ?_, rfl, ht⟩, hz⟩
        rw [e10] at hn ⊢
        exact (mem_iff_memRead hg.sorted _ _).2 hn
    framing := by rw [e8]; exact h.framing }

/-- DEND (R143). -/
theorem inv_dend {s : State} (h : Invariant s) (hp : s.fsm = .decode) (hr : s.rem = 0) :
    Invariant { s with fsm := .done } := by
  have hfl := h.flushed (by rw [hp]; exact Phase.noConfusion) (by rw [hp]; exact Phase.noConfusion)
  have hc := (h.cursor hp).2 hr
  exact
  { errIffFault := by simp [err_none h (by rw [hp]; exact Phase.noConfusion)]
    idle := by simp
    packing := by simp
    packed := fun _ hz => absurd hz (h.loaded (Or.inr hp))
    accHigh := h.accHigh
    flushed := fun _ _ => hfl
    noBitcnt := h.noBitcnt
    noRem := fun _ _ => ⟨hr, hc⟩
    loaded := by simp
    noTable := by simp
    tree := h.tree
    leaves := h.leaves
    seenMarks := h.seenMarks
    seenLeaf := h.seenLeaf
    allocated := h.allocated
    cursor := by simp
    framing := h.framing }

/-- The bytes being framed and the host's queue matter to the invariant only by the framing clause. -/
theorem inv_buffer {s : State} (h : Invariant s) (buf : List Byte) (inp : List HostInput) (hb : decode buf = .reject .incomplete) :
    Invariant { s with cbuf := buf, inputs := inp } where
  errIffFault := h.errIffFault
  idle := by intro hi; have := h.idle hi; rw [this]; rfl
  packing := h.packing
  packed := h.packed
  accHigh := h.accHigh
  flushed := h.flushed
  noBitcnt := h.noBitcnt
  noRem := h.noRem
  loaded := h.loaded
  noTable := h.noTable
  tree := h.tree
  leaves := h.leaves
  seenMarks := h.seenMarks
  seenLeaf := h.seenLeaf
  allocated := h.allocated
  cursor := h.cursor
  framing := hb

end Sys2Proof.Machine
end

