-- ==== Sys2Proof/Laws/PerInstr.lean ====
section
/-! SUPPORT. What holds of every command as syntax, one lemma per constructor: family `Length`, the number of bytes a
well-formed command takes (30_encoding.md R80, R81). -/

namespace Sys2Proof.Laws.Length

/-- R80: the encoding of a well-formed command has the length that `cmdlen` reads from its own bytes, whatever
follows, and that is from 1 to 35. -/
def Statement (i : Instr) : Prop :=
  i.wf = true → (∀ rest, cmdlen (encode i ++ rest) = some (encode i).length) ∧
    1 ≤ (encode i).length ∧ (encode i).length ≤ 35

theorem nop : Statement .nop := fun _ => ⟨fun _ => rfl, by decide⟩

theorem clr : Statement .clr := fun _ => ⟨fun _ => rfl, by decide⟩

theorem pstart : Statement .pstart := fun _ => ⟨fun _ => rfl, by decide⟩

theorem pcode (len : Byte) (code : List Byte) : Statement (.pcode len code) := by
  intro h
  have h : code.length = ceilBytes len := by simpa [Instr.wf] using h
  have := ceilBytes_le len
  refine ⟨fun rest => ?_, by simp [encode], by simp only [encode, List.length_cons]; omega⟩
  simp [cmdlen, encode, h]
  omega

theorem pend : Statement .pend := fun _ => ⟨fun _ => rfl, by decide⟩

theorem lstart : Statement .lstart := fun _ => ⟨fun _ => rfl, by decide⟩

theorem lentry (sym len : Byte) (code : List Byte) : Statement (.lentry sym len code) := by
  intro h
  have h : code.length = ceilBytes len := by simpa [Instr.wf] using h
  have := ceilBytes_le len
  refine ⟨fun rest => ?_, by simp [encode], by simp only [encode, List.length_cons]; omega⟩
  simp [cmdlen, encode, h]
  omega

theorem dstart (n : BitCount) : Statement (.dstart n) := fun _ => ⟨fun _ => rfl, by simp [encode]⟩

theorem dbyte (b : Byte) : Statement (.dbyte b) := fun _ => ⟨fun _ => rfl, by simp [encode]⟩

theorem dend : Statement .dend := fun _ => ⟨fun _ => rfl, by decide⟩

theorem illegal (op : Byte) : Statement (.illegal op) := by
  intro h
  obtain ⟨_, _, _, h11, _, _, h21, h30, h31, _⟩ := (reservedOpcode_iff op).1 h
  refine ⟨fun rest => ?_, by simp [encode]⟩
  simp only [encode, List.singleton_append, cmdlen, if_neg h31, if_neg h30, if_neg h11, if_neg h21]
  rfl

end Sys2Proof.Laws.Length
end

