-- ==== Sys2Proof/Laws/Runs.lean ====
section
/-! SUPPORT. Runs of several commands, and how a payload cut into bytes parses (43_unpack_walk.md R148). -/

namespace Sys2Proof.Machine

theorem sub_ofNat_eq {r : BitCount} {k : Nat} (h : k ≤ r.toNat) : r - BitVec.ofNat 32 k = BitVec.ofNat 32 (r.toNat - k) := by
  have := r.isLt
  apply BitVec.eq_of_toNat_eq
  rw [BitVec.toNat_sub, BitVec.toNat_ofNat, BitVec.toNat_ofNat]
  omega

theorem cursor_leaf {s : State} (h : Invariant s) (hp : s.fsm = .decode) : leafSym s.mem s.cur = none := by
  obtain ⟨n, hn, ht⟩ := cursor_read h hp
  exact (leafSym_none hn).2 ht

/-- The walk follows the parse (R148), in terms of the count of R142. -/
theorem walk_to {s : State} (h : Invariant s) (hp : s.fsm = .decode) (bits more : BitString) (u : BitString)
    (syms : List Byte) (i : NodeIndex) (hu : follow s.mem 0 u = some s.cur) (hps : Parses s.mem (u ++ bits) syms i)
    (hr : bits.length ≤ s.rem.toNat) :
    walkBits (bits ++ more) s = walkBits more
      { s with rem := BitVec.ofNat 32 (s.rem.toNat - bits.length), cur := i, out := s.out ++ syms } := by
  rw [walkBits_parses bits more s u syms i ((treeOk_iff_growing _ _).1 h.tree) (nfree_pos h (Or.inr hp)) hu
    (cursor_leaf h hp) hr hps, sub_ofNat_eq hr]

/-- A run of two lists of commands is one run after the other. -/
theorem execAll_append (a b : List Instr) (s : State) :
    execAll (a ++ b) s = match execAll a s with
      | .next t => execAll b t
      | .fault r => .fault r
      | .refused r => .refused r := by
  induction a generalizing s with
  | nil => rfl
  | cons i a ih =>
    simp only [List.cons_append, execAll]
    cases exec i s <;> simp [ih]

/-- A path that goes on has not met a leaf. -/
theorem leaf_no_child {m : Memory} {k : Nat} (hg : Growing m k 0) {a c : BitString} {i : NodeIndex} (hc : c ≠ [])
    (h : follow m 0 (a ++ c) = some i) : ∃ j, follow m 0 a = some j ∧ leafSym m j = none := by
  rw [follow_append] at h
  cases hj : follow m 0 a with
  | none => rw [hj] at h; cases h
  | some j =>
    refine ⟨j, rfl, ?_⟩
    cases hs : leafSym m j with
    | none => rfl
    | some y =>
      exfalso
      obtain ⟨n, hn, ht, _⟩ := leafSym_some hs
      rw [hj] at h
      exact hc (follow_childless hn (hg.leafChildless _ n hn ht) h)

/-- A parse can be cut after any bit: the part before ends at a node, and the rest parses from the path to it. -/
theorem parses_split {m : Memory} {k : Nat} (hg : Growing m k 0) {bits : BitString} {syms : List Byte} {i : NodeIndex}
    (h : Parses m bits syms i) : ∀ a b, bits = a ++ b → ∃ v syms1 syms2 j, Parses m a syms1 j ∧ follow m 0 v = some j ∧
      Parses m (v ++ b) syms2 i ∧ syms = syms1 ++ syms2 := by
  induction h with
  | rest v i hf hi =>
    rintro a b rfl
    by_cases hb : b = []
    · subst hb
      rw [List.append_nil] at hf
      exact ⟨a, [], [], i, .rest a i hf hi, hf, by rw [List.append_nil]; exact .rest a i hf hi, rfl⟩
    · obtain ⟨j, h1, h2⟩ := leaf_no_child hg hb hf
      exact ⟨a, [], [], j, .rest a j h1 h2, h1, .rest _ i hf hi, rfl⟩
  | code w sym bits syms i hw hp ih =>
    intro a b he
    rcases List.append_eq_append_iff.1 he with ⟨a', rfl, rfl⟩ | ⟨c, rfl, rfl⟩
    · obtain ⟨v, s1, s2, j, h1, h2, h3, h4⟩ := ih a' b rfl
      exact ⟨v, sym :: s1, s2, j, .code w sym a' s1 j hw h1, h2, h3, by rw [h4]; rfl⟩
    · by_cases hc : c = []
      · subst hc
        obtain ⟨v, s1, s2, j, h1, h2, h3, h4⟩ := ih [] bits rfl
        rw [List.append_nil] at hw
        refine ⟨v, sym :: s1, s2, j, ?_, h2, by simpa using h3, by rw [h4]; rfl⟩
        have := Parses.code a sym [] s1 j hw h1
        simpa using this
      · obtain ⟨q, n, hf, _⟩ := tableLookup_some hw
        obtain ⟨j, h1, h2⟩ := leaf_no_child hg hc hf
        refine ⟨a, [], sym :: syms, j, .rest a j h1 h2, h1, ?_, rfl⟩
        rw [← List.append_assoc]
        exact .code _ sym bits syms i hw hp

theorem take_byteBits (b : Byte) (k : Nat) (h : k ≤ 8) : (byteBits b).take k = (List.range k).map fun j => b.getLsbD (7 - j) := by
  rw [byteBits, ← List.map_take, List.take_range, Nat.min_eq_left h]

end Sys2Proof.Machine
end

