-- ==== Sys2Proof/Tests/Slice0.lean ====
section
/-! SUPPORT. Tests: ill-formed terms refused, words written out from the spec's encodings, one-step tests whose results are
the spec's own test vectors (95_test_vectors.md, cited by their V- numbers), and for every statement with hypotheses
a witness that meets them. -/

namespace Sys2Proof.Tests

open Sys2Proof.Machine

/-! ### WellFormed: one ill-formed term for each check (R81, R88) -/

theorem test_wf_pcode_missing_byte : (Instr.pcode 9 [0xAA]).wf = false := by decide
theorem test_wf_pcode_extra_byte : (Instr.pcode 0 [0x00]).wf = false := by decide
theorem test_wf_lentry_missing_byte : (Instr.lentry 0x61 1 []).wf = false := by decide
theorem test_wf_lentry_extra_byte : (Instr.lentry 0x61 8 [0xFF, 0xFF]).wf = false := by decide
theorem test_wf_illegal_defined_opcode : (Instr.illegal 0x12).wf = false := by decide
theorem test_wf_accepts : (Instr.pcode 255 (List.replicate 32 0xFF)).wf = true ∧ (Instr.illegal 0x13).wf = true := by
  decide

/-! ### Decoding: words written out from R81 to R88 -/

theorem test_decode_nop : decode [0x00] = .command .nop [] := by decide
theorem test_decode_clr : decode [0x01, 0x10] = .command .clr [0x10] := by decide
theorem test_decode_pstart : decode [0x10] = .command .pstart [] := by decide
theorem test_decode_pcode : decode [0x11, 0x09, 0xAA, 0x80] = .command (.pcode 9 [0xAA, 0x80]) [] := by decide
theorem test_decode_pcode_empty : decode [0x11, 0x00, 0x12] = .command (.pcode 0 []) [0x12] := by decide
theorem test_decode_pend : decode [0x12] = .command .pend [] := by decide
theorem test_decode_lstart : decode [0x20] = .command .lstart [] := by decide
/-- V-E4: the byte 01 is the symbol, not a CLR. -/
theorem test_decode_lentry : decode [0x21, 0x01, 0x01, 0x80] = .command (.lentry 0x01 1 [0x80]) [] := by decide
theorem test_decode_dstart : decode [0x30, 0x00, 0x00, 0x01, 0x00] = .command (.dstart 256) [] := by decide
theorem test_decode_dbyte : decode [0x31, 0x1F, 0x32] = .command (.dbyte 0x1F) [0x32] := by decide
theorem test_decode_dend : decode [0x32] = .command .dend [] := by decide
theorem test_decode_illegal : decode [0x02] = .command (.illegal 0x02) [] ∧ decode [0x33] = .command (.illegal 0x33) [] := by
  decide
/-- V-E2: three of the four bytes of a PCODE are no command yet. -/
theorem test_decode_partial : decode [0x11, 0x09, 0xAA] = .reject .incomplete := by decide
/-- V-E9: the lengths of six commands. -/
theorem test_cmdlen : cmdlen [0x11, 0x08] = some 3 ∧ cmdlen [0x11, 0x09] = some 4 ∧ cmdlen [0x11, 0xFF] = some 34 ∧
    cmdlen [0x21, 0x61, 0xFF] = some 35 ∧ cmdlen [0x11, 0x00] = some 2 ∧ cmdlen [0x21, 0x61, 0x00] = some 3 := by decide
/-- A row's word as spec/opcode_table.json numbers it: byte 1 is bits 15..8. -/
theorem test_table_word : decodeTableWord 16 0x1F31 = some (.dbyte 0x1F) ∧ decodeTableWord 8 0x30 = some (.dstart 0) ∧
    decodeTableWord 40 0x0403020130 = some (.dstart 0x01020304) := by decide
theorem test_withFetchWord : step (State.reset.withFetchWord 8 0x10) = .next { State.reset with fsm := .pack } := rfl

/-! ### Small states -/

/-- After `10 11 02 C0` (V-C1). -/
def packing : State := { State.reset with fsm := .pack, acc := 0x03, nacc := 2, bitcnt := 2 }

/-- After `10 11 01 80 12` (V-P3). -/
def packed : State := { State.reset with fsm := .done, bitcnt := 1, out := [0x80] }

/-- After `FF` (V-E6). -/
def faulted : State := { State.reset with fsm := .fault, err := some .illegalCommand }

/-- V-P15's start, and V-P16's (`out` left out: no command here reads it). -/
def nearlyFull : State := { State.reset with fsm := .pack, acc := 0, nacc := 6, bitcnt := 0xFFFFFFFE }
def full : State := { State.reset with fsm := .pack, acc := 1, nacc := 7, bitcnt := 0xFFFFFFFF }

def inner (c0 c1 : NodeIndex) : NodeWord := { tag := .internal, sym := 0, c0 := c0, c1 := c1 }
def leaf (sym : Byte) : NodeWord := { tag := .leaf, sym := sym, c0 := 0, c1 := 0 }

def marks (syms : List Byte) : BitVec 256 := syms.foldl (fun x y => x ||| BitVec.twoPow 256 y.toNat) 0

def loading (mem : Memory) (syms : List Byte) : State :=
  { State.reset with
    fsm := .load, nfree := BitVec.ofNat 16 mem.length, nent := BitVec.ofNat 9 syms.length, seen := marks syms, mem := mem }

/-- V-L1. -/
def emptyLoad : State := loading [(0, inner 0 0)] []

/-- V-L2: a = "0". -/
def loadA : State := loading [(0, inner 1 0), (1, leaf 0x61)] [0x61]

/-- After `20 21 62 02 00` (V-L6): b = "00". -/
def loadB : State := loading [(0, inner 1 0), (1, inner 2 0), (2, leaf 0x62)] [0x62]

/-- P2 after its LENTRY b: a = "0", b = "11". -/
def loadAB : State := loading [(0, inner 1 2), (1, leaf 0x61), (2, inner 0 3), (3, leaf 0x62)] [0x61, 0x62]

/-- V-L3: the table T3, a = "0", b = "11", c = "10". -/
def loadT3 : State :=
  loading [(0, inner 1 2), (1, leaf 0x61), (2, inner 4 3), (3, leaf 0x62), (4, leaf 0x63)] [0x61, 0x62, 0x63]

def decodingA (n : BitCount) : State := { loadA with fsm := .decode, rem := n }
def decodingT3 (n : BitCount) : State := { loadT3 with fsm := .decode, rem := n }

/-- V-D2: after the first payload byte of P2. -/
def midT3 : State := { decodingT3 1 with cur := 2, out := [0x61, 0x61, 0x61, 0x62, 0x62] }

/-- V-D3. -/
def endT3 : State := { decodingT3 0 with out := [0x61, 0x61, 0x61, 0x62, 0x62, 0x63] }

def faultOf (k : ErrorKind) (s : State) : Result := .next { s with fsm := .fault, err := some k }

/-! ### One command each, at most two tests an instruction -/

/-- V-C1. -/
theorem test_nop : exec .nop packing = .next packing := rfl
/-- V-C2. -/
theorem test_clr : exec .clr packing = .next State.reset := rfl
/-- V-C18. -/
theorem test_clr_in_fault : exec .clr faulted = .next State.reset := rfl
/-- V-C15. -/
theorem test_pstart : exec .pstart packed = .next { State.reset with fsm := .pack } := rfl
/-- V-C6. -/
theorem test_pstart_in_pack : exec .pstart packing = faultOf .illegalCommand packing := rfl
/-- V-E3: nine bits, one byte out and one bit pending. -/
theorem test_pcode : exec (.pcode 9 [0xAA, 0x80]) { State.reset with fsm := .pack } =
    .next { State.reset with fsm := .pack, acc := 1, nacc := 1, bitcnt := 9, out := [0xAA] } := rfl
/-- V-P15, V-P16: the count 2^32 - 1 is reached, and one bit more is refused. -/
theorem test_pcode_overflow : exec (.pcode 1 [0x80]) nearlyFull = .next full ∧
    exec (.pcode 1 [0x80]) full = faultOf .bitCountOverflow full := ⟨rfl, rfl⟩
/-- P6: three pending bits, 101, flushed as A0. -/
theorem test_pend : exec .pend { State.reset with fsm := .pack, acc := 5, nacc := 3, bitcnt := 19, out := [0xAA, 0xAA] } =
    .next { State.reset with fsm := .done, bitcnt := 19, out := [0xAA, 0xAA, 0xA0] } := rfl
/-- V-P2, V-C7. -/
theorem test_pend_empty : exec .pend { State.reset with fsm := .pack } = .next { State.reset with fsm := .done } ∧
    exec .pend State.reset = faultOf .illegalCommand State.reset := ⟨rfl, rfl⟩
/-- V-C16. -/
theorem test_lstart : exec .lstart packed = .next emptyLoad := rfl
/-- V-C12. -/
theorem test_lstart_in_load : exec .lstart emptyLoad = faultOf .illegalCommand emptyLoad := rfl
/-- V-L3: c = "10" takes node 4, child 0 of node 2. -/
theorem test_lentry : exec (.lentry 0x63 2 [0x80]) loadAB = .next loadT3 := rfl
/-- V-L5 to V-L8 and V-L10: what LENTRY refuses, with nothing written. -/
theorem test_lentry_refused : exec (.lentry 0x62 2 [0x00]) loadA = faultOf .malformedCodeTable loadA ∧
    exec (.lentry 0x61 1 [0x00]) loadB = faultOf .malformedCodeTable loadB ∧
    exec (.lentry 0x62 1 [0x00]) loadA = faultOf .malformedCodeTable loadA ∧
    exec (.lentry 0x61 1 [0x80]) loadA = faultOf .malformedCodeTable loadA ∧
    exec (.lentry 0x61 0 []) loadA = faultOf .corruptContainer loadA := ⟨rfl, rfl, rfl, rfl, rfl⟩
/-- V-D1. -/
theorem test_dstart : exec (.dstart 9) loadT3 = .next (decodingT3 9) := rfl
/-- V-D11, V-D10. -/
theorem test_dstart_empty_table : exec (.dstart 1) emptyLoad = faultOf .emptyAlphabet emptyLoad ∧
    exec (.dstart 0) emptyLoad = .next { emptyLoad with fsm := .decode } := ⟨rfl, rfl⟩
/-- V-D2, V-D3. -/
theorem test_dbyte : exec (.dbyte 0x1F) (decodingT3 9) = .next midT3 ∧ exec (.dbyte 0x00) midT3 = .next endT3 := ⟨rfl, rfl⟩
/-- V-D15 (with a for A): the third bit selects a missing child and is counted. V-D9: a leftover path. -/
theorem test_dbyte_faults : exec (.dbyte 0x20) (decodingA 4) =
      faultOf .corruptContainer { decodingA 1 with out := [0x61, 0x61] } ∧
    exec (.dbyte 0x1F) (decodingT3 8) = faultOf .corruptContainer { midT3 with rem := 0 } := ⟨rfl, rfl⟩
/-- V-D4. -/
theorem test_dend : exec .dend endT3 = .next { endT3 with fsm := .done } := rfl
/-- V-D6. -/
theorem test_dend_truncated : exec .dend midT3 = faultOf .truncatedPayload midT3 := rfl
/-- V-C3. -/
theorem test_illegal : exec (.illegal 0x13) packing = faultOf .illegalCommand packing := rfl
/-- V-C19: in FAULT the second error does not happen. -/
theorem test_illegal_in_fault : exec (.illegal 0xFF) { midT3 with fsm := .fault, err := some .truncatedPayload } =
    .next { midT3 with fsm := .fault, err := some .truncatedPayload } := rfl
/-- V-E2: a byte of a partial command only joins `cbuf`. -/
theorem test_partial_command : step { packing with cbuf := [0x11, 0x09], inputs := [.byte 0xAA] } =
    .next { packing with cbuf := [0x11, 0x09, 0xAA] } := rfl
/-- R203: reset discards a partial command. -/
theorem test_hardware_reset : step { midT3 with cbuf := [0x30, 0x00], inputs := [.reset, .byte 0x00] } =
    .next { State.reset with inputs := [.byte 0x00] } := rfl

/-! ### Concrete states with the invariant -/

theorem reset_invariant : Invariant State.reset := inv_clearAll (s := State.reset) rfl
theorem emptyLoad_invariant : Invariant emptyLoad := inv_lstart reset_invariant (by decide)
theorem packing_invariant : Invariant packing :=
  inv_pcode (inv_pstart reset_invariant (by decide)) rfl 2 [0xC0] (by decide)
theorem packed_invariant : Invariant packed :=
  (inv_pend (inv_pcode (inv_pstart reset_invariant (by decide)) rfl 1 [0x80] (by decide)) rfl).2 (by decide)
theorem loadA_invariant : Invariant loadA :=
  inv_lentry emptyLoad_invariant rfl 0x61 1 [0x00] (by decide) (by decide) rfl
theorem loadB_invariant : Invariant loadB :=
  inv_lentry emptyLoad_invariant rfl 0x62 2 [0x00] (by decide) (by decide) rfl
theorem loadAB_invariant : Invariant loadAB :=
  inv_lentry loadA_invariant rfl 0x62 2 [0xC0] (by decide) (by decide) rfl
theorem loadT3_invariant : Invariant loadT3 :=
  inv_lentry loadAB_invariant rfl 0x63 2 [0x80] (by decide) (by decide) rfl
theorem decodingT3_invariant (n : BitCount) : Invariant (decodingT3 n) := inv_dstart loadT3_invariant rfl n
theorem midT3_invariant : Invariant midT3 := by
  obtain ⟨t, h, hi, _⟩ := dbyte_next (decodingT3_invariant 9) rfl 0x1F
  cases (Host.Outcome.next.inj h : midT3 = t)
  exact hi
theorem decodingA_invariant (n : BitCount) : Invariant (decodingA n) := inv_dstart loadA_invariant rfl n

/-! ### Witnesses: for each statement with hypotheses, values that meet them together -/

theorem witness_HardwareResetLeavesTheResetState :
    { midT3 with inputs := [.reset, .byte 0x10] }.inputs = HostInput.reset :: [.byte 0x10] := rfl

theorem witness_StepKeepsInvariant : Invariant { midT3 with cbuf := [0x31], inputs := [.byte 0x00] } ∧
    step { midT3 with cbuf := [0x31], inputs := [.byte 0x00] } = .next endT3 :=
  ⟨inv_buffer midT3_invariant _ _ rfl, rfl⟩

theorem witness_EveryStepAnswersANextState : Invariant midT3 := midT3_invariant

theorem witness_DecodeOfEncodeIsTheCommand : (Instr.lentry 0x00 255 (List.replicate 32 0xFF)).wf = true ∧
    (Instr.pcode 0 []).wf = true ∧ (Instr.illegal 0x02).wf = true := by decide

theorem witness_EncodeOfDecodedIsTheBytes : decode [0x21, 0x61, 0x01, 0x7F, 0x32] = .command (.lentry 0x61 1 [0x7F]) [0x32] := by
  decide

theorem witness_CommandsTakeCmdlenBytes : decode [0x31, 0x1F] = .command (.dbyte 0x1F) [] ∧
    decode [0x30, 0x00] = .reject .incomplete := by decide

theorem witness_CodeBitsAreMostSignificantFirst : [0xAA, 0x80#8].length = ceilBytes 9 ∧ 8 / 8 < [0xAA, 0x80#8].length ∧
    8 < (9#8).toNat := by decide

theorem witness_StepExecutesTheDecodedCommand : { packing with cbuf := [0x11, 0x01], inputs := [.byte 0x80] }.inputs =
    HostInput.byte 0x80 :: [] ∧ decode ([0x11, 0x01] ++ [0x80]) = .command (.pcode 1 [0x80]) [] := by decide

theorem witness_PartialCommandHasNoEffect : { packing with inputs := [.byte 0x11] }.inputs = HostInput.byte 0x11 :: [] ∧
    decode (packing.cbuf ++ [0x11]) = .reject .incomplete ∧ packing.inputs = [] := by decide

theorem witness_CommandBytesRunTheCommand : (Instr.dstart 9).wf = true ∧ loadT3.cbuf = [] ∧
    { loadT3 with inputs := [.byte 0x30, .byte 0x00, .byte 0x00, .byte 0x00, .byte 0x09, .reset] }.inputs =
      (encode (.dstart 9)).map HostInput.byte ++ [.reset] := by decide

theorem witness_ExcludedInputBitsAreIgnored :
    (∀ i < (1#8).toNat, ([0x00#8].getD (i / 8) 0).getLsbD (7 - i % 8) = ([0x7F#8].getD (i / 8) 0).getLsbD (7 - i % 8)) ∧
    ∀ j < min 8 midT3.rem.toNat, (0x00#8).getLsbD (7 - j) = (0x7F#8).getLsbD (7 - j) := by decide

theorem witness_ReservedOpcodeRaisesIllegalCommand :
    (0x02#8) ∉ [0x00#8, 0x01, 0x10, 0x11, 0x12, 0x20, 0x21, 0x30, 0x31, 0x32] ∧
    (0xFF#8) ∉ [0x00#8, 0x01, 0x10, 0x11, 0x12, 0x20, 0x21, 0x30, 0x31, 0x32] ∧ packing.fsm ≠ .fault ∧ faulted.fsm = .fault := by
  decide

theorem witness_OutOfPhaseCommandRaisesIllegalCommand : MarkedIllegal .pstart packing.fsm ∧ MarkedIllegal .lstart loadA.fsm ∧
    MarkedIllegal (.pcode 0 []) State.reset.fsm ∧ MarkedIllegal .pend State.reset.fsm ∧
    MarkedIllegal (.lentry 0x62 1 [0x80]) midT3.fsm ∧ MarkedIllegal (.dstart 0) packed.fsm ∧
    MarkedIllegal (.dbyte 0) loadA.fsm ∧ MarkedIllegal .dend loadA.fsm ∧ MarkedIllegal (.illegal 0x02) packing.fsm := by
  simp [MarkedIllegal, packing, loadA, loading, State.reset, midT3, decodingT3, packed]

theorem witness_FaultIsSticky : faulted.fsm = .fault ∧ Instr.pstart ≠ .clr ∧
    { faulted with inputs := [.byte 0x10] }.inputs = HostInput.byte 0x10 :: [] ∧
    (∀ rest, decode (faulted.cbuf ++ [0x10]) ≠ .command .clr rest) ∧ faulted.inputs = [] := by
  refine ⟨rfl, by decide, rfl, ?_, rfl⟩
  intro rest h
  cases h

theorem witness_PhaseChangesOnlyAsListed : exec .pend packing = .next { State.reset with fsm := .done, bitcnt := 2, out := [0xC0] } ∧
    { State.reset with fsm := .done, bitcnt := 2, out := [0xC0] }.fsm ≠ packing.fsm := ⟨rfl, by decide⟩

theorem witness_FaultingCommandsWriteOnlyFsmAndErr : Invariant (decodingT3 8) ∧ (decodingT3 8).fsm ≠ .fault ∧
    exec (.dbyte 0x1F) (decodingT3 8) = .next { midT3 with rem := 0, fsm := .fault, err := some .corruptContainer } ∧
    Invariant loadA ∧ loadA.fsm ≠ .fault ∧
    exec (.lentry 0x61 0 []) loadA = .next { loadA with fsm := .fault, err := some .corruptContainer } :=
  ⟨decodingT3_invariant 8, by decide, rfl, loadA_invariant, by decide, rfl⟩

theorem witness_EachRegisterIsWrittenOnlyByItsCommands : exec (.dbyte 0x1F) (decodingT3 9) = .next midT3 ∧
    midT3.rem ≠ (decodingT3 9).rem ∧ midT3.out ≠ (decodingT3 9).out ∧
    exec (.lentry 0x63 2 [0x80]) loadAB = .next loadT3 ∧ loadT3.mem ≠ loadAB.mem ∧ loadT3.seen ≠ loadAB.seen ∧
    exec (.pcode 1 [0x80]) nearlyFull = .next full ∧ full.acc ≠ nearlyFull.acc ∧ full.bitcnt ≠ nearlyFull.bitcnt ∧
    exec .dend midT3 = .next { midT3 with fsm := .fault, err := some .truncatedPayload } ∧
    some ErrorKind.truncatedPayload ≠ midT3.err ∧
    exec .dend endT3 = .next { endT3 with fsm := .done } ∧ Phase.done ≠ endT3.fsm :=
  ⟨rfl, by decide, by decide, rfl, by decide, by decide, rfl, by decide, by decide, rfl, by decide, rfl, by decide⟩

theorem witness_OutIsOnlyAppendedTo : exec (.dbyte 0x00) midT3 = .next endT3 ∧ Instr.dbyte 0x00 ≠ .pstart ∧
    Instr.dbyte 0x00 ≠ .lstart ∧ Instr.dbyte 0x00 ≠ .clr := ⟨rfl, by decide, by decide, by decide⟩

theorem witness_NodeMemoryKeepsCanonicalForm : Memory.wf loadAB.mem ∧ exec (.lentry 0x63 2 [0x80]) loadAB = .next loadT3 :=
  ⟨by decide, rfl⟩

theorem witness_StatusOutputsAndResult : State.reset.fsm = .idle ∧ packing.fsm = .pack ∧ loadA.fsm = .load ∧ midT3.fsm = .decode ∧
    packed.fsm = .done ∧ faulted.fsm = .fault ∧ faulted.err = some .illegalCommand ∧ packed.err = none := by decide

theorem witness_NothingCarriesOverBetweenOperations : Invariant State.reset ∧ Invariant packed ∧ State.reset.fsm = .idle ∧
    packed.fsm = .done ∧ State.reset.cbuf = packed.cbuf ∧ State.reset.inputs = packed.inputs :=
  ⟨reset_invariant, packed_invariant, rfl, rfl, rfl, rfl⟩

theorem witness_PstartOpensARun : State.reset.fsm = .idle ∧ packed.fsm = .done ∧ packing.fsm = .pack := ⟨rfl, rfl, rfl⟩

/-- V-P15: the sum is exactly 2^32 - 1. -/
theorem witness_PcodeAppendsTheCode : nearlyFull.fsm = .pack ∧ 1#8 ≠ 0 ∧
    nearlyFull.bitcnt.toNat + (1#8).toNat = 2 ^ 32 - 1 ∧ nearlyFull.acc.toNat < 2 ^ nearlyFull.nacc.toNat := by decide

/-- V-P17: 0xFFFFFF01 + 255 is 2^32. -/
theorem witness_PcodeChecksLengthThenOverflow : { packing with bitcnt := 0xFFFFFF01 }.fsm = .pack ∧ 255#8 ≠ 0 ∧
    { packing with bitcnt := 0xFFFFFF01 }.bitcnt.toNat + (255#8).toNat > 2 ^ 32 - 1 := by decide

theorem witness_PendFlushesThePendingBits : packing.fsm = .pack ∧ packing.nacc ≠ 0 ∧
    { State.reset with fsm := .pack }.nacc = 0 ∧ full.fsm = .pack ∧ full.nacc ≠ 0 ∧ packed.fsm ≠ .pack ∧
    packed.fsm ≠ .fault := by decide

/-- T3 as entries, in the order a, b, c. -/
def tableT3 : List Entry := [⟨0x61, 1, [0x00]⟩, ⟨0x62, 2, [0xC0]⟩, ⟨0x63, 2, [0x80]⟩]

theorem tableT3_valid : ValidTable tableT3 := by
  constructor <;> decide

theorem witness_PackingRunConcatenatesTheCodes : packed.fsm = .done ∧ (∀ e ∈ tableT3, e.len ≠ 0) ∧
    (tableT3.flatMap Entry.bits).length ≤ 2 ^ 32 - 1 := by decide

theorem witness_LstartOpensALoad : State.reset.fsm = .idle ∧ packed.fsm = .done ∧ loadA.fsm = .load := ⟨rfl, rfl, rfl⟩

theorem witness_LentryZeroLengthIsCorrupt : loadA.fsm = .load := rfl

theorem witness_LentryRepeatedSymbolIsMalformed : loadA.fsm = .load ∧ 1#8 ≠ 0 ∧
    loadA.seen.getLsbD (0x61#8).toNat = true := by decide

theorem witness_LentryAddsTheEntry : Invariant loadAB ∧ loadAB.fsm = .load ∧ 2#8 ≠ 0 ∧
    loadAB.seen.getLsbD (0x63#8).toNat = false ∧ ¬ Conflicts loadAB.mem (codeBits 2 [0x80]) := by
  refine ⟨loadAB_invariant, rfl, by decide, by decide, ?_⟩
  rcases lentry_spec loadAB_invariant rfl 0x63 2 [0x80] (by decide) (by decide) with ⟨_, h⟩ | ⟨h, _⟩
  · rw [show insertCode 0x63 (codeBits 2 [0x80]) 0 loadAB = .next loadT3 from rfl] at h
    have := congrArg State.fsm (Host.Outcome.next.inj h)
    exact absurd this (by decide)
  · exact h

/-- V-L5, V-L6 and V-L7: the three ways to conflict (and `witness_LentryAddsTheEntry`: none). -/
theorem witness_LentryConflictIsMalformed : Invariant loadA ∧ Invariant loadB ∧ loadA.fsm = .load ∧ loadB.fsm = .load ∧
    loadA.seen.getLsbD (0x62#8).toNat = false ∧ loadB.seen.getLsbD (0x61#8).toNat = false ∧
    Conflicts loadA.mem (codeBits 2 [0x00]) ∧ Conflicts loadB.mem (codeBits 1 [0x00]) ∧
    Conflicts loadA.mem (codeBits 1 [0x00]) :=
  ⟨loadA_invariant, loadB_invariant, rfl, rfl, by decide, by decide,
    ⟨[false], 0x61, by decide, Or.inl (by decide)⟩, ⟨[false, false], 0x62, by decide, Or.inr (by decide)⟩,
    ⟨[false], 0x61, by decide, Or.inl (by decide)⟩⟩

theorem witness_NodeMemoryCannotFillUp : Invariant loadT3 ∧ loadT3.fsm = .load := ⟨loadT3_invariant, rfl⟩

theorem witness_LoadingAValidTableDenotesIt : Invariant packed ∧ packed.fsm = .done ∧ ValidTable tableT3 :=
  ⟨packed_invariant, rfl, tableT3_valid⟩

theorem witness_DstartDeclaresThePayload : loadA.fsm = .load ∧ loadA.nent ≠ 0 ∧ emptyLoad.fsm = .load ∧ emptyLoad.nent = 0 ∧
    1#32 ≠ 0 := by decide

/-- The bits 1, 1, 0 from the root: b, then a, at the root again. -/
theorem parses_T3 : Parses (decodingT3 3).mem [true, true, false] [0x62, 0x61] 0 :=
  .code [true, true] 0x62 [false] [0x61] 0 (by decide)
    (.code [false] 0x61 [] [] 0 (by decide) (.rest [] 0 rfl (by decide)))

/-- The bits 1, 1, 1: b, and a leftover path to node 2. -/
theorem parses_T3_leftover : Parses (decodingT3 3).mem [true, true, true] [0x62] 2 :=
  .code [true, true] 0x62 [true] [] 2 (by decide) (.rest [true] 2 (by decide) (by decide))

/-- N = 3 with the byte C0, and N = 9 with the byte FF, whose eight bits are b four times. -/
theorem witness_DbyteWalksThePayload : Invariant (decodingT3 3) ∧ (decodingT3 3).fsm = .decode ∧ (decodingT3 3).rem ≠ 0 ∧
    follow (decodingT3 3).mem 0 [] = some (decodingT3 3).cur ∧
    Parses (decodingT3 3).mem ([] ++ (List.range (min 8 (decodingT3 3).rem.toNat)).map fun j => (0xC0#8).getLsbD (7 - j))
      [0x62, 0x61] 0 ∧
    8 < (decodingT3 9).rem.toNat ∧
    Parses (decodingT3 9).mem ([] ++ (List.range (min 8 (decodingT3 9).rem.toNat)).map fun j => (0xFF#8).getLsbD (7 - j))
      [0x62, 0x62, 0x62, 0x62] 0 :=
  ⟨decodingT3_invariant 3, rfl, by decide, rfl, parses_T3, by decide,
    .code [true, true] 0x62 _ _ 0 (by decide) (.code [true, true] 0x62 _ _ 0 (by decide)
      (.code [true, true] 0x62 _ _ 0 (by decide) (.code [true, true] 0x62 [] [] 0 (by decide)
        (.rest [] 0 rfl (by decide)))))⟩

theorem witness_DbyteLeftoverPathIsCorrupt : Invariant (decodingT3 3) ∧ (decodingT3 3).fsm = .decode ∧
    (decodingT3 3).rem ≠ 0 ∧ follow (decodingT3 3).mem 0 [] = some (decodingT3 3).cur ∧
    Parses (decodingT3 3).mem ([] ++ (List.range (min 8 (decodingT3 3).rem.toNat)).map fun j => (0xE0#8).getLsbD (7 - j))
      [0x62] 2 ∧ (decodingT3 3).rem.toNat ≤ 8 ∧ (2 : NodeIndex) ≠ 0 :=
  ⟨decodingT3_invariant 3, rfl, by decide, rfl, parses_T3_leftover, by decide, by decide⟩

/-- V-D15 (with a for A): bits 0, 0, then 1 at the root, which has no child 1. -/
theorem witness_DbyteMissingChildIsCorrupt : Invariant (decodingA 4) ∧ (decodingA 4).fsm = .decode ∧ (decodingA 4).rem ≠ 0 ∧
    follow (decodingA 4).mem 0 [] = some (decodingA 4).cur ∧
    ((List.range (min 8 (decodingA 4).rem.toNat)).map fun j => (0x20#8).getLsbD (7 - j)) =
      [false, false] ++ true :: [false] ∧
    Parses (decodingA 4).mem ([] ++ [false, false]) [0x61, 0x61] 0 ∧
    memRead (decodingA 4).mem (0 : NodeIndex).toNat = some (inner 1 0) ∧ (inner 1 0).child true = 0 :=
  ⟨decodingA_invariant 4, rfl, by decide, rfl, by decide,
    .code [false] 0x61 [false] [0x61] 0 (by decide) (.code [false] 0x61 [] [] 0 (by decide) (.rest [] 0 rfl (by decide))),
    by decide, by decide⟩

theorem witness_EveryPayloadParsesOrMissesAChild : Invariant midT3 ∧ midT3.fsm = .decode := ⟨midT3_invariant, rfl⟩

theorem witness_TooManyOrTooFewBytes : endT3.fsm = .decode ∧ endT3.rem = 0 ∧ midT3.fsm = .decode ∧ midT3.rem ≠ 0 := by
  decide

theorem witness_DendEndsTheDecode : endT3.fsm = .decode ∧ endT3.rem = 0 ∧ midT3.fsm = .decode ∧ midT3.rem ≠ 0 ∧
    loadA.fsm ≠ .decode ∧ loadA.fsm ≠ .fault := by decide

theorem witness_DecodingRunRecoversTheSymbols : Invariant loadT3 ∧ loadT3.fsm = .load ∧
    [0xC0#8].length = ((3#32).toNat + 7) / 8 ∧
    Parses loadT3.mem (([0xC0#8].flatMap byteBits).take (3#32).toNat) [0x62, 0x61] 0 :=
  ⟨loadT3_invariant, rfl, rfl, parses_T3⟩

theorem witness_DecodingThePackedMessageGivesItBack : Invariant State.reset ∧ State.reset.fsm = .idle ∧ ValidTable tableT3 ∧
    tableT3.reverse.Perm tableT3 ∧ (∀ e ∈ tableT3, e ∈ tableT3) ∧ (tableT3.flatMap Entry.bits).length ≤ 2 ^ 32 - 1 :=
  ⟨reset_invariant, rfl, tableT3_valid, List.reverse_perm _, fun _ h => h, by decide⟩

end Sys2Proof.Tests
end

/-! SUPPORT. The invariant of R36 along a run of commands, and the table load (41_table_load.md R121 to R127): what its
commands establish one after another. -/

namespace Sys2Proof.Machine

/-! ### The invariant along a run -/

theorem inv_raise {k : ErrorKind} {s t : State} (h : Invariant s) (he : raise k s = .next t) : Invariant t := by
  cases he
  exact inv_faultEntry k h

/-- R36: every command's rule keeps the invariant in the phases where dispatch lets it execute. -/
theorem rule_keeps_invariant {i : Instr} {s t : State} (h : Invariant s) (hf : i = .clr ∨ s.fsm ≠ .fault)
    (hl : legal i s.fsm = true) (he : rule i s = .next t) : Invariant t := by
  cases i with
  | nop =>
    cases he
    exact h
  | clr =>
    cases he
    exact inv_clearAll h.framing
  | pstart =>
    cases he
    exact inv_pstart h (hf.resolve_left Instr.noConfusion)
  | pcode len code =>
    rw [rule] at he
    split_ifs at he with hlen hmax
    · exact inv_raise h he
    · exact inv_raise h he
    · cases he
      exact inv_pcode h (by simpa [legal] using hl) len code (Nat.not_lt.1 hmax)
  | pend =>
    obtain ⟨hempty, hpending⟩ := inv_pend h (by simpa [legal] using hl)
    rw [rule] at he
    split_ifs at he with hn
    · cases he
      exact hempty hn
    · cases he
      exact hpending hn
  | lstart =>
    cases he
    exact inv_lstart h (hf.resolve_left Instr.noConfusion)
  | lentry sym len code =>
    rw [rule] at he
    split_ifs at he with hlen hseen
    · exact inv_raise h he
    · exact inv_raise h he
    · exact inv_lentry h (by simpa [legal] using hl) sym len code hlen (by simpa using hseen) he
  | dstart n =>
    rw [rule] at he
    split_ifs at he
    · exact inv_raise h he
    · cases he
      exact inv_dstart h (by simpa [legal] using hl) n
  | dbyte b =>
    rw [rule] at he
    split_ifs at he
    · exact inv_raise h he
    · obtain ⟨t', hw, ht', -⟩ := dbyte_next h (by simpa [legal] using hl) b
      cases hw.symm.trans he
      exact ht'
  | dend =>
    rw [rule] at he
    split_ifs at he with hrem
    · exact inv_raise h he
    · cases he
      exact inv_dend h (by simpa [legal] using hl) (not_not.1 hrem)
  | illegal op => exact inv_raise h he

/-- R36: every command keeps the invariant. -/
theorem exec_keeps_invariant {i : Instr} {s t : State} (h : Invariant s) (he : exec i s = .next t) : Invariant t := by
  obtain ⟨-, -, hi⟩ | ⟨-, -, hi⟩ | ⟨hf, hl, hi⟩ := exec_cases i s
  · cases hi.symm.trans he
    exact h
  · exact inv_raise h (hi.symm.trans he)
  · exact rule_keeps_invariant h hf hl (hi.symm.trans he)

theorem execAll_cons_next {i : Instr} {s t : State} (h : exec i s = .next t) (is : List Instr) :
    execAll (i :: is) s = execAll is t := by
  simp [execAll, h]

theorem execAll_append_next {a : List Instr} {s t : State} (h : execAll a s = .next t) (b : List Instr) :
    execAll (a ++ b) s = execAll b t := by
  simp [execAll_append, h]

theorem execAll_keeps_invariant {is : List Instr} {s t : State} (h : Invariant s) (he : execAll is s = .next t) :
    Invariant t := by
  induction is generalizing s with
  | nil =>
    cases he
    exact h
  | cons i is ih =>
    cases h1 : exec i s with
    | next s' => exact ih (exec_keeps_invariant h h1) (by rwa [execAll_cons_next h1] at he)
    | fault r => simp [execAll, h1] at he
    | refused r => simp [execAll, h1] at he

/-- PSTART and LSTART complete in IDLE and DONE (R111). -/
theorem exec_start {i : Instr} {s : State} (hi : i = .pstart ∨ i = .lstart) (hs : s.fsm = .idle ∨ s.fsm = .done) :
    exec i s = rule i s := by
  rcases hi with rfl | rfl <;> rcases hs with hs | hs <;> exact exec_legal (by simp [hs]) (by simp [hs, legal])

/-! ### The table load -/

/-- A table load under way, `table` the entries loaded so far (R28, R29, R37). -/
structure Loaded (table : List Entry) (s : State) : Prop where
  inv : Invariant s
  load : s.fsm = .load
  count : s.nent.toNat = table.length
  out : s.out = []
  seen : ∀ sym : Byte, s.seen.getLsbD sym.toNat = true ↔ ∃ e ∈ table, e.sym = sym
  lookup : ∀ v sym, tableLookup s.mem v = some sym ↔ ∃ e ∈ table, e.bits = v ∧ e.sym = sym

/-- The empty root denotes the empty table. -/
theorem tableLookup_emptyRoot (v : BitString) : tableLookup [(0, .emptyInternal)] v = none := by
  cases v with
  | nil => rfl
  | cons b v => simp [tableLookup, follow, memRead]

theorem exec_lstart_loaded {s : State} (h : Invariant s) (hs : s.fsm = .idle ∨ s.fsm = .done) :
    ∃ t, exec .lstart s = .next t ∧ Loaded [] t := by
  have he := exec_start (.inr rfl) hs
  refine ⟨_, he, exec_keeps_invariant h he, rfl, rfl, rfl, by simp, ?_⟩
  intro v sym
  have hv : tableLookup (memWrite [] 0 .emptyInternal) v = none := tableLookup_emptyRoot v
  simp [hv]

/-- In LOAD a LENTRY with a length and a new symbol is the insertion of its code (R124). -/
theorem exec_lentry_insert {s : State} {sym len : Byte} (hp : s.fsm = .load) (hl : len ≠ 0)
    (hs : s.seen.getLsbD sym.toNat = false) (code : List Byte) :
    exec (.lentry sym len code) s = insertCode sym (codeBits len code) 0 s := by
  rw [exec_legal (by simp [hp]) (by simp [hp, legal]), rule, if_neg hl, if_neg (by simp [hs])]

/-- Which entry of a table with one more entry has a given code, the new code being of no earlier entry. -/
theorem entry_snoc_iff {table : List Entry} {e : Entry} (hnew : ∀ f ∈ table, f.bits ≠ e.bits) {v : BitString}
    {sym : Byte} : (∃ f ∈ table ++ [e], f.bits = v ∧ f.sym = sym) ↔
      if v = e.bits then e.sym = sym else ∃ f ∈ table, f.bits = v ∧ f.sym = sym := by
  simp only [List.mem_append, List.mem_singleton, or_and_right, exists_or, exists_eq_left]
  split_ifs with hv
  · subst hv
    simpa using fun f hf hb => absurd hb (hnew f hf)
  · simp [Ne.symm hv]

/-- An entry whose code and symbol are new to the table is added to it (R124). -/
theorem exec_lentry_loaded {table : List Entry} {s : State} {e : Entry} (h : Loaded table s) (hl : e.len ≠ 0)
    (hnew : ∀ f ∈ table, f.sym ≠ e.sym ∧ ¬ f.bits <+: e.bits ∧ ¬ e.bits <+: f.bits) :
    ∃ t, exec e.load s = .next t ∧ Loaded (table ++ [e]) t := by
  have hseen : s.seen.getLsbD e.sym.toNat = false := by
    rw [Bool.eq_false_iff, ne_eq, h.seen]
    rintro ⟨f, hf, hsym⟩
    exact (hnew f hf).1 hsym
  have hfree : ¬ Conflicts s.mem e.bits := by
    rintro ⟨v, sym, hv, hpre⟩
    obtain ⟨f, hf, rfl, -⟩ := (h.lookup v sym).1 hv
    exact hpre.elim (hnew f hf).2.1 (hnew f hf).2.2
  obtain ⟨hc, -⟩ | ⟨-, t, hins, hi, hnent, -⟩ := lentry_spec h.inv h.load e.sym e.len e.code hl hseen
  · exact absurd hc hfree
  have he : exec e.load s = .next t := (exec_lentry_insert h.load hl hseen e.code).trans hins
  have hf := hi.frame
  refine ⟨t, he, exec_keeps_invariant h.inv he, ?_, by simp [hnent, h.count], ?_, ?_, ?_⟩
  · rw [hf]
    exact h.load
  · rw [hf]
    exact h.out
  · intro sym
    have ht : t.seen = s.seen ||| BitVec.twoPow 256 e.sym.toNat := by rw [hf]
    rw [ht, getLsbD_mark, Bool.or_eq_true, decide_eq_true_iff, BitVec.toNat_inj, h.seen]
    simp only [List.mem_append, List.mem_singleton, or_and_right, exists_or, exists_eq_left]
    exact or_congr_right eq_comm
  · intro v sym
    rw [hi.table, entry_snoc_iff fun f hf hb => (hnew f hf).2.1 (hb ▸ List.prefix_rfl)]
    change (if v = e.bits then _ else _) = _ ↔ _
    split
    · rw [Option.some_inj]
    · exact h.lookup v sym

theorem validTable_snoc {table : List Entry} {e : Entry} {more : List Entry} (h : ValidTable (table ++ e :: more)) :
    e.len ≠ 0 ∧ ∀ f ∈ table, f.sym ≠ e.sym ∧ ¬ f.bits <+: e.bits ∧ ¬ e.bits <+: f.bits := by
  obtain ⟨hlen, hpair⟩ := h
  exact ⟨hlen e (by simp), fun f hf => (List.pairwise_append.1 hpair).2.2 f hf e (by simp)⟩

/-- Entries that make a valid table together with those loaded before are added one after another. -/
theorem execAll_load_loaded {table more : List Entry} {s : State} (h : Loaded table s)
    (hv : ValidTable (table ++ more)) :
    ∃ t, execAll (more.map Entry.load) s = .next t ∧ Loaded (table ++ more) t := by
  induction more generalizing table s with
  | nil => exact ⟨s, rfl, by simpa using h⟩
  | cons e more ih =>
    obtain ⟨hl, hnew⟩ := validTable_snoc hv
    obtain ⟨s', hs', h'⟩ := exec_lentry_loaded h hl hnew
    obtain ⟨t, ht, hT⟩ := ih h' (by simpa using hv)
    exact ⟨t, (execAll_cons_next hs' _).trans ht, by simpa using hT⟩

/-- LSTART and the LENTRYs of a valid table load exactly that table (R14, R127). -/
theorem execAll_lstart_loaded {s : State} {table : List Entry} (h : Invariant s) (hs : s.fsm = .idle ∨ s.fsm = .done)
    (hv : ValidTable table) : ∃ t, execAll (.lstart :: table.map Entry.load) s = .next t ∧ Loaded table t := by
  obtain ⟨s', hs', h'⟩ := exec_lstart_loaded h hs
  obtain ⟨t, ht, hT⟩ := execAll_load_loaded h' hv
  exact ⟨t, (execAll_cons_next hs' _).trans ht, hT⟩

/-- Settles O39, by induction on the entries loaded: each LENTRY adds exactly its entry to the denoted table. -/
theorem loadingAValidTableDenotesIt : Obligations.LoadingAValidTableDenotesIt := by
  intro s table h hs hv
  obtain ⟨t, ht, hT⟩ := execAll_lstart_loaded h hs hv
  exact ⟨t, ht, hT.inv, hT.load, hT.count, hT.out, hT.lookup⟩

end Sys2Proof.Machine

/-! SUPPORT. The packing run (42_packer.md R131 to R136): what its commands establish one after another. -/

namespace Sys2Proof.Machine

/-- A packing run under way that has taken the bits `w` (R24, R134). -/
structure Packing (w : BitString) (s : State) : Prop where
  pack : s.fsm = .pack
  bits : packedBits s = w
  count : s.bitcnt.toNat = w.length

/-- The bytes emitted and the bits pending are the number of bits by 8 (R36 (b)). -/
theorem Packing.length {w : BitString} {s : State} (h : Packing w s) :
    s.out.length = w.length / 8 ∧ s.nacc.toNat = w.length % 8 := by
  have hlen := length_packedBits s
  rw [h.bits] at hlen
  have := s.nacc.isLt
  omega

theorem exec_pstart_packing {s : State} (hs : s.fsm = .idle ∨ s.fsm = .done) :
    ∃ t, exec .pstart s = .next t ∧ Packing [] t :=
  ⟨_, exec_start (.inl rfl) hs, rfl, rfl, rfl⟩

theorem toNat_bitcnt_add_len {n : BitCount} {len : Byte} (h : n.toNat + len.toNat ≤ 2 ^ 32 - 1) :
    (n + len.setWidth 32).toNat = n.toNat + len.toNat := by
  have := len.isLt
  rw [BitVec.toNat_add, BitVec.toNat_setWidth]
  omega

/-- In PACK a PCODE whose bits fit the count takes them in (R132). -/
theorem exec_pcode_next {s : State} {len : Byte} (hp : s.fsm = .pack) (hl : len ≠ 0)
    (hfit : s.bitcnt.toNat + len.toNat ≤ 2 ^ 32 - 1) (code : List Byte) :
    exec (.pcode len code) s = .next { packBits (codeBits len code) s with
      bitcnt := (packBits (codeBits len code) s).bitcnt + len.setWidth 32 } := by
  have hmax : ¬ s.bitcnt.toNat + len.toNat > Config.maxBitCount := Nat.not_lt.2 hfit
  rw [exec_legal (by simp [hp]) (by simp [hp, legal]), rule, if_neg hl, if_neg hmax]

/-- PCODE appends its code to the bits taken (R132). -/
theorem exec_pcode_packing {w : BitString} {s : State} {e : Entry} (h : Packing w s) (hl : e.len ≠ 0)
    (hfit : (w ++ e.bits).length ≤ 2 ^ 32 - 1) : ∃ t, exec e.pack s = .next t ∧ Packing (w ++ e.bits) t := by
  have hlen : e.bits.length = e.len.toNat := length_codeBits e.len e.code
  rw [List.length_append, hlen, ← h.count] at hfit
  obtain ⟨hbits, -, -, -, hframe⟩ := packBits_spec e.bits s
  have hpack : (packBits e.bits s).fsm = s.fsm := by rw [hframe]
  have hcount : (packBits e.bits s).bitcnt = s.bitcnt := by rw [hframe]
  refine ⟨{ packBits e.bits s with bitcnt := (packBits e.bits s).bitcnt + e.len.setWidth 32 }, ?_,
    hpack.trans h.pack, ?_, ?_⟩
  · exact exec_pcode_next h.pack hl hfit e.code
  · rw [← h.bits]
    exact hbits
  · rw [List.length_append, hlen, ← h.count, ← toNat_bitcnt_add_len hfit, hcount]

theorem execAll_pack_packing {w : BitString} {codes : List Entry} {s : State} (h : Packing w s)
    (hl : ∀ e ∈ codes, e.len ≠ 0) (hfit : (w ++ codes.flatMap Entry.bits).length ≤ 2 ^ 32 - 1) :
    ∃ t, execAll (codes.map Entry.pack) s = .next t ∧ Packing (w ++ codes.flatMap Entry.bits) t := by
  induction codes generalizing w s with
  | nil => exact ⟨s, rfl, by simpa using h⟩
  | cons e codes ih =>
    rw [List.flatMap_cons, ← List.append_assoc] at hfit ⊢
    have hfit1 : (w ++ e.bits).length ≤ 2 ^ 32 - 1 := (List.prefix_append _ _).length_le.trans hfit
    obtain ⟨s', hs', h'⟩ := exec_pcode_packing h (hl e (by simp)) hfit1
    obtain ⟨t, ht, hT⟩ := ih h' (fun f hf => hl f (by simp [hf])) hfit
    exact ⟨t, (execAll_cons_next hs' _).trans ht, hT⟩

/-- The run before PEND (R134). -/
theorem execAll_pstart_packing {s : State} {codes : List Entry} (hs : s.fsm = .idle ∨ s.fsm = .done)
    (hl : ∀ e ∈ codes, e.len ≠ 0) (hfit : (codes.flatMap Entry.bits).length ≤ 2 ^ 32 - 1) :
    ∃ t, execAll (.pstart :: codes.map Entry.pack) s = .next t ∧ Packing (codes.flatMap Entry.bits) t := by
  obtain ⟨s', hs', h'⟩ := exec_pstart_packing hs
  obtain ⟨t, ht, hT⟩ := execAll_pack_packing h' hl hfit
  exact ⟨t, (execAll_cons_next hs' _).trans ht, hT⟩

/-- A finished packing run of the bits `w`: whole bytes, zeros to the end of the last (R133, R134). -/
structure Packed (w : BitString) (s : State) : Prop where
  done : s.fsm = .done
  count : s.bitcnt.toNat = w.length
  length : s.out.length = (w.length + 7) / 8
  bits : ∃ pad, s.out.flatMap byteBits = w ++ List.replicate pad false

theorem exec_pend_packed {w : BitString} {s : State} (h : Packing w s) :
    ∃ t, exec .pend s = .next t ∧ Packed w t := by
  obtain ⟨hout, hnacc⟩ := h.length
  have hw : s.out.flatMap byteBits ++ pendingBits s = w := h.bits
  rw [exec_legal (by simp [h.pack]) (by simp [h.pack, legal]), rule]
  split_ifs with hz
  · have hz' : s.nacc.toNat = 0 := by simp [hz]
    refine ⟨_, rfl, rfl, h.count, by simp only; omega, 0, ?_⟩
    have hnone : pendingBits s = [] := List.eq_nil_of_length_eq_zero ((length_pendingBits s).trans hz')
    simpa [hnone] using hw
  · have hpos : s.nacc.toNat ≠ 0 := fun hc => hz (bitVec_eq_of_toNat hc)
    refine ⟨_, rfl, rfl, h.count, by simp; omega, 8 - s.nacc.toNat, ?_⟩
    rw [← hw, List.append_assoc, ← byteBits_flush]
    simp

/-- The whole run (R134, R136). -/
theorem execAll_packed {s : State} {codes : List Entry} (hs : s.fsm = .idle ∨ s.fsm = .done)
    (hl : ∀ e ∈ codes, e.len ≠ 0) (hfit : (codes.flatMap Entry.bits).length ≤ 2 ^ 32 - 1) :
    ∃ t, execAll (.pstart :: (codes.map Entry.pack ++ [.pend])) s = .next t ∧ Packed (codes.flatMap Entry.bits) t := by
  obtain ⟨s', hs', h'⟩ := execAll_pstart_packing hs hl hfit
  obtain ⟨t, ht, hT⟩ := exec_pend_packed h'
  exact ⟨t, (execAll_append_next hs' [.pend]).trans (execAll_cons_next ht []), hT⟩

end Sys2Proof.Machine

/-! SUPPORT. The decoding run (43_unpack_walk.md R141 to R148) and the round trip (00_scope.md R13). -/

namespace Sys2Proof.Machine

theorem exec_dstart_next {s : State} {n : BitCount} (hp : s.fsm = .load) (hn : s.nent ≠ 0 ∨ n = 0) :
    exec (.dstart n) s = .next { s with fsm := .decode, rem := n, cur := 0 } := by
  rw [exec_legal (by simp [hp]) (by simp [hp, legal]), rule, if_neg (by tauto)]

theorem exec_dend_next {s : State} (hp : s.fsm = .decode) (hr : s.rem = 0) :
    exec .dend s = .next { s with fsm := .done } := by
  rw [exec_legal (by simp [hp]) (by simp [hp, legal]), rule, if_neg (by simp [hr])]

theorem toNat_ofNat_sub (r : BitCount) (k : Nat) : (BitVec.ofNat 32 (r.toNat - k)).toNat = r.toNat - k := by
  have := r.isLt
  rw [BitVec.toNat_ofNat, Nat.mod_eq_of_lt (by omega)]

/-- A DBYTE whose payload bits parse, and not to a leftover path, emits the parse's symbols (R142, R145). -/
theorem exec_dbyte_parses {b : Byte} {s : State} {u : BitString} {syms : List Byte} {i : NodeIndex} (h : Invariant s)
    (hp : s.fsm = .decode) (hr : s.rem ≠ 0) (hu : follow s.mem 0 u = some s.cur)
    (hps : Parses s.mem (u ++ payloadBits b s.rem) syms i) (hend : 8 < s.rem.toNat ∨ i = 0) :
    exec (.dbyte b) s = .next { s with
      rem := BitVec.ofNat 32 (s.rem.toNat - 8), cur := i, out := s.out ++ syms } := by
  have hlen := length_payloadBits b s.rem
  have hsub : s.rem.toNat - min 8 s.rem.toNat = s.rem.toNat - 8 := by omega
  have hwalk := walk_to h hp (payloadBits b s.rem) [] u syms i hu hps (by omega)
  rw [List.append_nil, hlen, hsub] at hwalk
  have hnot : ¬ (BitVec.ofNat 32 (s.rem.toNat - 8) = 0 ∧ i ≠ 0) := by
    rintro ⟨hz, hi⟩
    have hleft : s.rem.toNat - 8 = 0 := by
      rw [← toNat_ofNat_sub, hz]
      rfl
    exact hi (hend.resolve_left (by omega))
  rw [exec_legal (by simp [hp]) (by simp [hp, legal]), rule, if_neg hr, hwalk, walkBits, if_neg hnot]

/-- The first `rem` bits of a byte and what follows it are the byte's payload bits and the rest of them (R144). -/
theorem take_byteBits_append (b : Byte) (rest : BitString) (r : BitCount) :
    (byteBits b ++ rest).take r.toNat = payloadBits b r ++ rest.take (r.toNat - 8) := by
  rw [List.take_append, length_byteBits, payloadBits, payloadCount, ← take_byteBits b _ (Nat.min_le_left _ _)]
  congr 1
  rw [← length_byteBits b, Nat.min_comm, List.take_eq_take_min]

/-- The payload bytes of a decode whose remaining bits split into codes, from the path `u` to the cursor (R148). -/
theorem execAll_dbytes {bytes syms : List Byte} {s : State} {u : BitString} (h : Invariant s) (hp : s.fsm = .decode)
    (hu : follow s.mem 0 u = some s.cur) (hlen : bytes.length = (s.rem.toNat + 7) / 8)
    (hps : Parses s.mem (u ++ (bytes.flatMap byteBits).take s.rem.toNat) syms 0) :
    execAll (bytes.map Instr.dbyte) s = .next { s with rem := 0, cur := 0, out := s.out ++ syms } := by
  have hg := (treeOk_iff_growing _ _).1 h.tree
  induction bytes generalizing s u syms with
  | nil =>
    have hr : s.rem = 0 := bitVec_eq_of_toNat (by simp at hlen ⊢; omega)
    have hnil : Parses s.mem u syms 0 := by simpa using hps
    obtain ⟨rfl, hcur⟩ := hg.parses_here hu (cursor_leaf h hp) hnil
    rw [List.append_nil, hcur, ← hr]
    rfl
  | cons b bytes ih =>
    rw [List.length_cons] at hlen
    have hr : s.rem ≠ 0 := by
      intro hz
      simp [hz] at hlen
    rw [List.flatMap_cons, take_byteBits_append, ← List.append_assoc] at hps
    obtain ⟨v, syms1, syms2, j, hfirst, hv, hrest, rfl⟩ := parses_split hg hps _ _ rfl
    have hend : 8 < s.rem.toNat ∨ j = 0 := by
      rcases Nat.lt_or_ge 8 s.rem.toNat with h8 | h8
      · exact .inl h8
      · rw [Nat.sub_eq_zero_of_le h8, List.take_zero, List.append_nil] at hrest
        exact .inr (hg.parses_here hv hfirst.end_internal.1 hrest).2.symm
    have hstep := exec_dbyte_parses h hp hr hu hfirst hend
    have hrem := toNat_ofNat_sub s.rem 8
    rw [List.map_cons, execAll_cons_next hstep, ih (exec_keeps_invariant h hstep) hp hv (by simp only [hrem]; omega)
      (by simpa only [hrem] using hrest) hg]
    simp only [List.append_assoc]

/-- A whole decode of a payload that splits into codes of the loaded table (R148). -/
theorem execAll_decode {s : State} {n : BitCount} {bytes syms : List Byte} (h : Invariant s) (hp : s.fsm = .load)
    (hn : s.nent ≠ 0 ∨ n = 0) (hlen : bytes.length = (n.toNat + 7) / 8)
    (hps : Parses s.mem ((bytes.flatMap byteBits).take n.toNat) syms 0) :
    execAll (.dstart n :: (bytes.map Instr.dbyte ++ [.dend])) s =
      .next { s with fsm := .done, rem := 0, cur := 0, out := s.out ++ syms } := by
  have hstart := exec_dstart_next hp hn
  have hbytes := execAll_dbytes (u := []) (exec_keeps_invariant h hstart) rfl rfl hlen hps
  rw [execAll_cons_next hstart, execAll_append_next hbytes, execAll_cons_next (exec_dend_next rfl rfl)]
  rfl

/-- The codes of a message over the denoted table parse to its symbols. -/
theorem parses_message {m : Memory} {message : List Entry} (hroot : leafSym m 0 = none)
    (hm : ∀ e ∈ message, tableLookup m e.bits = some e.sym) :
    Parses m (message.flatMap Entry.bits) (message.map Entry.sym) 0 := by
  induction message with
  | nil => exact .rest [] 0 rfl hroot
  | cons e message ih =>
    exact .code e.bits e.sym _ _ 0 (hm e (by simp)) (ih fun f hf => hm f (by simp [hf]))

theorem leafSym_root {s : State} (h : Invariant s) (hp : s.fsm = .load ∨ s.fsm = .decode) : leafSym s.mem 0 = none := by
  have hg := (treeOk_iff_growing _ _).1 h.tree
  obtain ⟨r, hr⟩ := hg.read_some (nfree_pos h hp)
  exact (leafSym_none (p := 0) hr).2 (hg.root r hr)

/-- A table that has the entries of a message is not empty, or the message is. -/
theorem Loaded.nent_ne_zero {table message : List Entry} {s : State} (h : Loaded table s)
    (hm : ∀ e ∈ message, e ∈ table) : s.nent ≠ 0 ∨ message = [] := by
  cases message with
  | nil => exact .inr rfl
  | cons e message =>
    left
    intro hz
    have hcount := h.count
    have hpos := List.length_pos_of_mem (hm e (by simp))
    simp [hz] at hcount
    omega

/-- Every order of a valid table is a valid table. -/
theorem ValidTable.perm {table loaded : List Entry} (hv : ValidTable table) (hp : loaded.Perm table) :
    ValidTable loaded :=
  ⟨fun e he => hv.1 e (hp.mem_iff.1 he),
    hp.symm.pairwise hv.2 fun ⟨hsym, hpre, hpre'⟩ => ⟨hsym.symm, hpre', hpre⟩⟩

/-- Settles O48: the packed bits are the message's codes and a padding, the loaded table gives each code its symbol, so
the bits the count declares parse to the message. -/
theorem decodingThePackedMessageGivesItBack : Obligations.DecodingThePackedMessageGivesItBack := by
  intro s table loaded message h hs hv hperm hmem hfit
  obtain ⟨t, ht, hT⟩ := execAll_packed hs (fun e he => hv.1 e (hmem e he)) hfit
  obtain ⟨pad, hpad⟩ := hT.bits
  obtain ⟨l, hl, hL⟩ := execAll_lstart_loaded (execAll_keeps_invariant h ht) (.inr hT.done) (hv.perm hperm)
  have hloaded : ∀ e ∈ message, e ∈ loaded := fun e he => hperm.mem_iff.2 (hmem e he)
  have hlookup : ∀ e ∈ message, tableLookup l.mem e.bits = some e.sym := fun e he =>
    (hL.lookup e.bits e.sym).2 ⟨e, hloaded e he, rfl, rfl⟩
  have hps : Parses l.mem ((t.out.flatMap byteBits).take t.bitcnt.toNat) (message.map Entry.sym) 0 := by
    rw [hpad, hT.count, List.take_left]
    exact parses_message (leafSym_root hL.inv (.inl hL.load)) hlookup
  have hn : l.nent ≠ 0 ∨ t.bitcnt = 0 := (hL.nent_ne_zero hloaded).imp_right fun hnil =>
    bitVec_eq_of_toNat (by rw [hT.count, hnil]; rfl)
  have hdec := execAll_decode hL.inv hL.load hn (hT.count ▸ hT.length) hps
  have hbit : l.bitcnt = 0 := hL.inv.noBitcnt (hL.inv.loaded (.inl hL.load))
  refine ⟨t, ht, by simp [State.result, hT.done], _, (execAll_append_next hl _).trans hdec, ?_⟩
  simp [State.result, hL.out, hbit]

end Sys2Proof.Machine

/-! SUPPORT. The statements about the state (10_state.md R20 to R40): its reset values, its status outputs, what a step
keeps, and which commands write which register. -/

namespace Sys2Proof.Machine

/-! ### Reset values and status outputs -/

theorem exec_clr (s : State) : exec .clr s = .next (clearAll s) := by
  rw [exec_eq_dispatch, dispatch_clr, rule]

theorem resetValues_clearAll (s : State) : ResetValues (clearAll s) := by
  refine ⟨rfl, rfl, rfl, rfl, rfl, rfl, rfl, rfl, rfl, fun sym => ?_, rfl, fun i => rfl⟩
  simp

/-- Settles O1: the reset state is itself a state cleared by CLR. -/
theorem resetAndClrLeaveTheResetValues : Obligations.ResetAndClrLeaveTheResetValues :=
  ⟨⟨resetValues_clearAll State.reset, rfl⟩, fun s => ⟨clearAll s, exec_clr s, resetValues_clearAll s, rfl⟩⟩

/-- Settles O3: the reset state is what hardware reset leaves of itself. -/
theorem invariantHoldsAtReset : Obligations.InvariantHoldsAtReset := inv_hardReset State.reset

theorem done_iff (s : State) : s.done = true ↔ s.fsm = .done := by
  rw [State.done, State.fsmCode]
  cases s.fsm <;> decide

theorem fault_iff (s : State) : s.fault = true ↔ s.fsm = .fault := by
  rw [State.fault, State.fsmCode]
  cases s.fsm <;> decide

theorem over_iff (s : State) : s.over = true ↔ s.fsm = .done ∨ s.fsm = .fault := by
  rw [State.over, Bool.or_eq_true, done_iff, fault_iff]

theorem result_done {s : State} (h : s.fsm = .done) : s.result = .ok s.out s.bitcnt := by
  simp [State.result, h]

theorem result_fault {s : State} (h : s.fsm = .fault) : s.result = .fail s.errCode := by
  simp [State.result, h]

theorem result_notOver {s : State} (hd : s.fsm ≠ .done) (hf : s.fsm ≠ .fault) : s.result = .notOver := by
  cases h : s.fsm with
  | done => exact absurd h hd
  | fault => exact absurd h hf
  | idle | pack | load | decode => simp [State.result, h]

/-- Settles O26: the codes are read off the two tables, the outputs and the result off the phase. -/
theorem statusOutputsAndResult : Obligations.StatusOutputsAndResult := by
  intro s
  have hphase : ∀ p, s.fsm = p → s.fsmCode = p.code := fun p h => by rw [State.fsmCode, h]
  have hkind : ∀ k, s.err = some k → s.errCode = k.code := fun k h => by rw [State.errCode, h]
  have hnone : s.err = none → s.errCode = 0 := fun h => by rw [State.errCode, h]
  exact ⟨hphase _, hphase _, hphase _, hphase _, hphase _, hphase _, hnone, hkind _, hkind _, hkind _, hkind _, hkind _,
    hkind _, done_iff s, fault_iff s, over_iff s, result_done, result_fault, result_notOver⟩

/-! ### What every step keeps -/

/-- Settles O13: of the four things a step can do, the other three meet another head of the queue or a complete command. -/
theorem partialCommandHasNoEffect : Obligations.PartialCommandHasNoEffect := by
  constructor
  · intro s b later hi hd
    obtain ⟨h, -⟩ | ⟨_, h, -⟩ | ⟨_, _, h, -, hs⟩ | ⟨_, _, _, _, h, hc, -⟩ := step_cases s <;> cases hi.symm.trans h
    · exact hs
    · cases hd.symm.trans hc
  · intro s hi
    obtain ⟨-, hs⟩ | ⟨_, h, -⟩ | ⟨_, _, h, -⟩ | ⟨_, _, _, _, h, -⟩ := step_cases s
    · exact hs
    all_goals cases hi.symm.trans h

/-- Taking a completed command out of the buffer leaves the buffer empty (R34), so the command starts with the
invariant. -/
theorem inv_takeCommand {s : State} {b : Byte} {i : Instr} {rest : List Byte} (h : Invariant s)
    (hd : decode (s.cbuf ++ [b]) = .command i rest) (later : List HostInput) :
    Invariant { s with cbuf := rest, inputs := later } :=
  inv_buffer h rest later (by rw [decode_snoc h.framing hd]; rfl)

/-- Settles O4, by the four things a step can do: waiting, hardware reset, buffering a byte and executing a command. -/
theorem stepKeepsInvariant : Obligations.StepKeepsInvariant := by
  intro s t h ht
  obtain ⟨-, hs⟩ | ⟨later, -, hs⟩ | ⟨b, later, -, hd, hs⟩ | ⟨b, later, i, rest, -, hd, hs⟩ := step_cases s
  · cases hs.symm.trans ht
    exact h
  · cases hs.symm.trans ht
    exact inv_hardReset _
  · cases hs.symm.trans ht
    exact inv_buffer h _ later hd
  · exact exec_keeps_invariant (inv_takeCommand h hd later) (hs.symm.trans ht)

/-- R36 (f): in the phases where dispatch lets it execute, a command's rule reads no unspecified node word. Only LENTRY
and DBYTE read node words at all. -/
theorem rule_answers {i : Instr} {s : State} (h : Invariant s) (hl : legal i s.fsm = true) : ∃ t, rule i s = .next t := by
  cases i with
  | nop => exact ⟨_, rfl⟩
  | clr => exact ⟨_, rfl⟩
  | pstart => exact ⟨_, rfl⟩
  | pcode len code =>
    rw [rule]
    split_ifs <;> exact ⟨_, rfl⟩
  | pend =>
    rw [rule]
    split_ifs <;> exact ⟨_, rfl⟩
  | lstart => exact ⟨_, rfl⟩
  | lentry sym len code =>
    rw [rule]
    split_ifs with hlen hseen
    · exact ⟨_, rfl⟩
    · exact ⟨_, rfl⟩
    · obtain ⟨-, hc⟩ | ⟨-, t, ht, -⟩ :=
        lentry_spec h (by simpa [legal] using hl) sym len code hlen (by simpa using hseen)
      · exact ⟨_, hc⟩
      · exact ⟨t, ht⟩
  | dstart n =>
    rw [rule]
    split_ifs <;> exact ⟨_, rfl⟩
  | dbyte b =>
    rw [rule]
    split_ifs
    · exact ⟨_, rfl⟩
    · obtain ⟨t, ht, -⟩ := dbyte_next h (by simpa [legal] using hl) b
      exact ⟨t, ht⟩
  | dend =>
    rw [rule]
    split_ifs <;> exact ⟨_, rfl⟩
  | illegal op => exact ⟨_, rfl⟩

theorem exec_answers {s : State} (h : Invariant s) (i : Instr) : ∃ t, exec i s = .next t := by
  obtain ⟨-, -, hi⟩ | ⟨-, -, hi⟩ | ⟨-, hl, hi⟩ := exec_cases i s
  · exact ⟨_, hi⟩
  · exact ⟨_, hi⟩
  · rw [hi]
    exact rule_answers h hl

/-- Settles O5: of the four things a step can do only executing a command could stop, and it starts with the
invariant. -/
theorem everyStepAnswersANextState : Obligations.EveryStepAnswersANextState := by
  intro s h
  refine ⟨?_, exec_answers h⟩
  obtain ⟨-, hs⟩ | ⟨later, -, hs⟩ | ⟨b, later, -, -, hs⟩ | ⟨b, later, i, rest, -, hd, hs⟩ := step_cases s
  · exact ⟨_, hs⟩
  · exact ⟨_, hs⟩
  · exact ⟨_, hs⟩
  · rw [SafeStep, hs]
    exact exec_answers (inv_takeCommand h hd later) i

/-! ### Which commands write which register (R20, R40) -/

/-- `s` with the fields taken from `t` that a command can write when it completes (R20, "written by"). -/
def takeWritten : Instr → State → State → State
  | .nop, s, _ => s
  | .clr, s, t => { t with cbuf := s.cbuf, inputs := s.inputs }
  | .pstart, s, t => { t with err := s.err, cbuf := s.cbuf, inputs := s.inputs }
  | .pcode _ _, s, t => { s with acc := t.acc, nacc := t.nacc, bitcnt := t.bitcnt, out := t.out }
  | .pend, s, t => { s with fsm := t.fsm, acc := t.acc, nacc := t.nacc, out := t.out }
  | .lstart, s, t => { t with err := s.err, cbuf := s.cbuf, inputs := s.inputs }
  | .lentry _ _ _, s, t => { s with nfree := t.nfree, nent := t.nent, seen := t.seen, mem := t.mem }
  | .dstart _, s, t => { s with fsm := t.fsm, rem := t.rem, cur := t.cur }
  | .dbyte _, s, t => { s with rem := t.rem, cur := t.cur, out := t.out }
  | .dend, s, t => { s with fsm := t.fsm }
  | .illegal _, s, _ => s

/-- The command has written no field but its own, or has raised and written `fsm` and `err` as well (R170). -/
def WritesItsOwn (i : Instr) (s t : State) : Prop :=
  t = takeWritten i s t ∨ t = { takeWritten i s t with fsm := .fault, err := t.err }

theorem writesItsOwn_refl (i : Instr) (s : State) : WritesItsOwn i s s := by
  cases i <;> exact Or.inl rfl

theorem writesItsOwn_faultEntry (i : Instr) (k : ErrorKind) (s : State) : WritesItsOwn i s (faultEntry k s) := by
  cases i <;> exact Or.inr rfl

theorem writesItsOwn_raise {i : Instr} {k : ErrorKind} {s t : State} (he : raise k s = .next t) : WritesItsOwn i s t := by
  cases he
  exact writesItsOwn_faultEntry i k s

theorem packBits_writesItsOwn (len : Byte) (code : List Byte) (n : BitCount) (s : State) :
    WritesItsOwn (.pcode len code) s { packBits (codeBits len code) s with bitcnt := n } := by
  obtain ⟨-, -, -, -, hframe⟩ := packBits_spec (codeBits len code) s
  refine Or.inl ?_
  rw [hframe]
  rfl

theorem rule_writesItsOwn {i : Instr} {s t : State} (he : rule i s = .next t) : WritesItsOwn i s t := by
  cases i with
  | nop =>
    cases he
    exact Or.inl rfl
  | clr =>
    cases he
    exact Or.inl rfl
  | pstart =>
    cases he
    exact Or.inl rfl
  | pcode len code =>
    rw [rule] at he
    split_ifs at he
    · exact writesItsOwn_raise he
    · exact writesItsOwn_raise he
    · cases he
      exact packBits_writesItsOwn len code _ s
  | pend =>
    rw [rule] at he
    split_ifs at he <;> cases he <;> exact Or.inl rfl
  | lstart =>
    cases he
    exact Or.inl rfl
  | lentry sym len code =>
    rw [rule] at he
    split_ifs at he
    · exact writesItsOwn_raise he
    · exact writesItsOwn_raise he
    · obtain ⟨_, -, -, hraised⟩ | hinserted := insertCode_any _ _ _ _ _ he
      · refine Or.inr ?_
        rw [hraised]
        rfl
      · exact Or.inl hinserted
  | dstart n =>
    rw [rule] at he
    split_ifs at he
    · exact writesItsOwn_raise he
    · cases he
      exact Or.inl rfl
  | dbyte b =>
    rw [rule] at he
    split_ifs at he
    · exact writesItsOwn_raise he
    · obtain ⟨-, ⟨-, hraised⟩ | hwalked⟩ := walkBits_any _ _ _ he
      · exact Or.inr hraised
      · exact Or.inl hwalked
  | dend =>
    rw [rule] at he
    split_ifs at he
    · exact writesItsOwn_raise he
    · cases he
      exact Or.inl rfl
  | illegal op => exact writesItsOwn_raise he

theorem exec_writesItsOwn {i : Instr} {s t : State} (he : exec i s = .next t) : WritesItsOwn i s t := by
  obtain ⟨-, -, hi⟩ | ⟨-, -, hi⟩ | ⟨-, -, hi⟩ := exec_cases i s
  · cases hi.symm.trans he
    exact writesItsOwn_refl i s
  · cases hi.symm.trans he
    exact writesItsOwn_faultEntry i _ s
  · exact rule_writesItsOwn (hi.symm.trans he)

/-- Settles O23: `takeWritten` lists the fields of each command, and raising adds `fsm` and `err`. -/
theorem eachRegisterIsWrittenOnlyByItsCommands : Obligations.EachRegisterIsWrittenOnlyByItsCommands := by
  intro i s t he
  obtain hw | hw := exec_writesItsOwn he
  · rw [hw]
    cases i <;> simp [takeWritten]
  · rw [hw]
    cases i <;> simp [takeWritten]

/-! ### The canonical form of the node memory -/

theorem wf_nil : Memory.wf [] := by decide

/-- The rules of the commands that write the node memory keep its canonical form. -/
theorem rule_keeps_wf {i : Instr} {s t : State} (hw : Memory.wf s.mem)
    (hi : i = .clr ∨ i = .pstart ∨ i = .lstart ∨ ∃ sym len code, i = .lentry sym len code)
    (he : rule i s = .next t) : Memory.wf t.mem := by
  obtain rfl | rfl | rfl | ⟨sym, len, code, rfl⟩ := hi
  · cases he
    exact wf_nil
  · cases he
    exact wf_nil
  · cases he
    exact writeNode_wf 0 .emptyInternal (clearOperation s) wf_nil
  · rw [rule] at he
    split_ifs at he
    · cases he
      exact hw
    · cases he
      exact hw
    · exact insertCode_wf _ _ _ _ _ hw he

/-- Settles O25: the memory is unchanged but by the four commands O23 lists for it, and their rules keep the form. -/
theorem nodeMemoryKeepsCanonicalForm : Obligations.NodeMemoryKeepsCanonicalForm := by
  intro i s t hw he
  obtain ⟨-, -, -, -, -, hmem, -⟩ := eachRegisterIsWrittenOnlyByItsCommands i s t he
  by_cases hsame : t.mem = s.mem
  · rwa [hsame]
  obtain ⟨-, -, hi⟩ | ⟨-, -, hi⟩ | ⟨-, -, hi⟩ := exec_cases i s
  · cases hi.symm.trans he
    exact hw
  · cases hi.symm.trans he
    exact hw
  · exact rule_keeps_wf hw (hmem (.inr (.inr (.inr hsame)))) (hi.symm.trans he)

end Sys2Proof.Machine

/-! SUPPORT. The statements about framing from end to end, input bits outside the declared length and the growth of `out`
(20_memory.md R65, R70, R74). -/

namespace Sys2Proof

/-! ### Encoding and decoding agree (R95) -/

theorem decode_encode {i : Instr} (h : i.wf = true) (rest : List Byte) : decode (encode i ++ rest) = .command i rest := by
  cases i with
  | nop | clr | pstart | pend | lstart | dbyte b | dend => rfl
  | pcode len code => exact decodePcode_code len code rest (by simpa [Instr.wf] using h)
  | lentry sym len code => exact decodeLentry_code sym len code rest (by simpa [Instr.wf] using h)
  | dstart n =>
    change Decoded.command (.dstart (bigEndian32 _ _ _ _)) rest = _
    rw [bigEndian32_bytes]
  | illegal op =>
    obtain ⟨h00, h01, h10, h11, h12, h20, h21, h30, h31, h32⟩ := (reservedOpcode_iff op).1 h
    simp only [encode, List.singleton_append, decode, if_neg h00, if_neg h01, if_neg h10, if_neg h11, if_neg h12,
      if_neg h20, if_neg h21, if_neg h30, if_neg h31, if_neg h32]

theorem encode_of_decodePcode {tl rest : List Byte} {i : Instr} (h : decodePcode tl = .command i rest) :
    i.wf = true ∧ encode i ++ rest = 0x11 :: tl := by
  cases tl with
  | nil => cases h
  | cons len bs =>
    rw [decodePcode] at h
    split_ifs at h with hlen
    cases h
    exact ⟨by simpa [Instr.wf] using hlen, by simp [encode]⟩

theorem encode_of_decodeLentry {tl rest : List Byte} {i : Instr} (h : decodeLentry tl = .command i rest) :
    i.wf = true ∧ encode i ++ rest = 0x21 :: tl := by
  match tl with
  | [] => cases h
  | [_] => cases h
  | sym :: len :: bs =>
    rw [decodeLentry] at h
    split_ifs at h with hlen
    cases h
    exact ⟨by simpa [Instr.wf] using hlen, by simp [encode]⟩

theorem encode_of_decodeDstart {tl rest : List Byte} {i : Instr} (h : decodeDstart tl = .command i rest) :
    i.wf = true ∧ encode i ++ rest = 0x30 :: tl := by
  match tl with
  | [] => cases h
  | [_] => cases h
  | [_, _] => cases h
  | [_, _, _] => cases h
  | b1 :: b2 :: b3 :: b4 :: _ =>
    cases h
    obtain ⟨h1, h2, h3, h4⟩ := bytes_bigEndian32 b1 b2 b3 b4
    exact ⟨rfl, by rw [encode, h1, h2, h3, h4]; rfl⟩

theorem encode_of_decodeDbyte {tl rest : List Byte} {i : Instr} (h : decodeDbyte tl = .command i rest) :
    i.wf = true ∧ encode i ++ rest = 0x31 :: tl := by
  cases tl with
  | nil => cases h
  | cons b bs =>
    cases h
    exact ⟨rfl, rfl⟩

/-- What is decoded is well formed, and encoding it gives back the bytes that were read. -/
theorem encode_of_decode {bs rest : List Byte} {i : Instr} (h : decode bs = .command i rest) :
    i.wf = true ∧ encode i ++ rest = bs := by
  cases bs with
  | nil => cases h
  | cons op tl =>
    rw [decode] at h
    split_ifs at h with h00 h01 h10 h11 h12 h20 h21 h30 h31 h32
    · cases h
      exact ⟨rfl, by rw [h00]; rfl⟩
    · cases h
      exact ⟨rfl, by rw [h01]; rfl⟩
    · cases h
      exact ⟨rfl, by rw [h10]; rfl⟩
    · rw [h11]
      exact encode_of_decodePcode h
    · cases h
      exact ⟨rfl, by rw [h12]; rfl⟩
    · cases h
      exact ⟨rfl, by rw [h20]; rfl⟩
    · rw [h21]
      exact encode_of_decodeLentry h
    · rw [h30]
      exact encode_of_decodeDstart h
    · rw [h31]
      exact encode_of_decodeDbyte h
    · cases h
      exact ⟨rfl, by rw [h32]; rfl⟩
    · cases h
      exact ⟨(reservedOpcode_iff op).2 ⟨h00, h01, h10, h11, h12, h20, h21, h30, h31, h32⟩, rfl⟩

/-- The command that starts a byte sequence does not depend on what follows it. -/
theorem decode_append {bs rest : List Byte} {i : Instr} (h : decode bs = .command i rest) (more : List Byte) :
    decode (bs ++ more) = .command i (rest ++ more) := by
  obtain ⟨hwf, rfl⟩ := encode_of_decode h
  rw [List.append_assoc, decode_encode hwf]

/-- R91: while bytes of a well-formed command are still to come, what has arrived is incomplete. -/
theorem decode_proper_prefix {i : Instr} {arrived coming : List Byte} (h : i.wf = true) (he : arrived ++ coming = encode i)
    (hc : coming ≠ []) : decode arrived = .reject .incomplete := by
  cases hd : decode arrived with
  | reject why => rfl
  | command j rest =>
    have hwhole : decode (encode i) = .command i [] := by simpa using decode_encode h []
    have hboth := (decode_append hd coming).symm.trans (he ▸ hwhole)
    simp only [Decoded.command.injEq, List.append_eq_nil_iff] at hboth
    obtain ⟨-, -, hnil⟩ := hboth
    exact absurd hnil hc

end Sys2Proof

namespace Sys2Proof.Machine

/-! ### The bytes of a command run it (R70, R91) -/

theorem step_completes {s : State} {b : Byte} {later : List HostInput} {i : Instr} {rest : List Byte}
    (hi : s.inputs = .byte b :: later) (hd : decode (s.cbuf ++ [b]) = .command i rest) :
    step s = exec i { s with cbuf := rest, inputs := later } := by
  obtain ⟨h, -⟩ | ⟨_, h, -⟩ | ⟨_, _, h, hr, -⟩ | ⟨_, _, _, _, h, hc, hs⟩ := step_cases s <;> cases hi.symm.trans h
  · cases hd.symm.trans hr
  · cases hd.symm.trans hc
    exact hs

theorem runSteps_one (s : State) : runSteps 1 s = step s := by
  rw [runSteps]
  cases step s <;> rfl

theorem runSteps_succ_next {s t : State} (h : step s = .next t) (k : Nat) : runSteps (k + 1) s = runSteps k t := by
  rw [runSteps, h]

/-- From the middle of a command, with `arrived` in the buffer, the bytes still to come run it. -/
theorem runSteps_coming {i : Instr} (hwf : i.wf = true) {coming arrived : List Byte} {s : State} {later : List HostInput}
    (he : arrived ++ coming = encode i) (hc : coming ≠ []) (hbuf : s.cbuf = arrived)
    (hin : s.inputs = coming.map HostInput.byte ++ later) :
    runSteps coming.length s = exec i { s with cbuf := [], inputs := later } := by
  induction coming generalizing arrived s with
  | nil => exact absurd rfl hc
  | cons b coming ih =>
    subst hbuf
    have he' : (s.cbuf ++ [b]) ++ coming = encode i := by simpa using he
    by_cases hlast : coming = []
    · subst hlast
      have hd : decode (s.cbuf ++ [b]) = .command i [] := by simpa [he] using decode_encode hwf []
      exact (runSteps_one s).trans (step_completes hin hd)
    · have hd := decode_proper_prefix hwf he' hlast
      have hstep := partialCommandHasNoEffect.1 s b _ hin hd
      rw [List.length_cons, runSteps_succ_next hstep]
      exact ih he' hlast rfl rfl

/-- Settles O14: from a command boundary all the bytes of the command are still to come. -/
theorem commandBytesRunTheCommand : Obligations.CommandBytesRunTheCommand := by
  intro i s later hwf hbuf hin
  have hne : encode i ≠ [] := by cases i <;> exact List.cons_ne_nil _ _
  rw [runSteps_coming hwf (List.nil_append _) hne hbuf hin, ← hbuf]

/-! ### Input bits outside the declared length (R65) -/

theorem codeBits_congr {len : Byte} {code code' : List Byte} (h : ∀ i < len.toNat, bitAt code i = bitAt code' i) :
    codeBits len code = codeBits len code' :=
  List.map_congr_left fun i hi => h i (List.mem_range.1 hi)

theorem payloadBits_congr {b b' : Byte} {rem : BitCount}
    (h : ∀ j < min 8 rem.toNat, b.getLsbD (7 - j) = b'.getLsbD (7 - j)) : payloadBits b rem = payloadBits b' rem :=
  List.map_congr_left fun j hj => h j (List.mem_range.1 hj)

/-- Two commands other than CLR that are legal in the same phases and have the same rule have the same effect. -/
theorem exec_congr {i j : Instr} {s : State} (hi : i ≠ .clr) (hj : j ≠ .clr) (hl : legal i s.fsm = legal j s.fsm)
    (hr : rule i s = rule j s) : exec i s = exec j s := by
  obtain ⟨-, hf, he⟩ | ⟨hf, hi', he⟩ | ⟨hc, hi', he⟩ := exec_cases i s
  · rw [he, exec_fault hj hf]
  · rw [he, exec_illegal hf (hl.symm.trans hi')]
  · rw [he, exec_legal (hc.resolve_left hi) (hl.symm.trans hi'), hr]

/-- Settles O15: the rules read a code only as its `codeBits` and a payload byte only as its `payloadBits`. -/
theorem excludedInputBitsAreIgnored : Obligations.ExcludedInputBitsAreIgnored := by
  constructor
  · intro len code code' h s
    have hbits : codeBits len code = codeBits len code' := codeBits_congr h
    exact ⟨exec_congr nofun nofun rfl (by rw [rule, rule, hbits]),
      fun sym => exec_congr nofun nofun rfl (by rw [rule, rule, hbits])⟩
  · intro s b b' h
    have hbits : payloadBits b s.rem = payloadBits b' s.rem := payloadBits_congr h
    exact exec_congr nofun nofun rfl (by rw [rule, rule, hbits])

/-! ### The growth of `out` (R74) -/

/-- The rules of the commands that emit bytes append to `out`. -/
theorem rule_out_prefix {i : Instr} {s t : State} (hi : i = .pend ∨ (∃ len code, i = .pcode len code) ∨ ∃ b, i = .dbyte b)
    (he : rule i s = .next t) : s.out <+: t.out := by
  obtain rfl | ⟨len, code, rfl⟩ | ⟨b, rfl⟩ := hi
  · rw [rule] at he
    split_ifs at he <;> cases he
    · exact List.prefix_refl _
    · exact List.prefix_append _ _
  · rw [rule] at he
    split_ifs at he <;> cases he
    · exact List.prefix_refl _
    · exact List.prefix_refl _
    · obtain ⟨-, -, -, hout, -⟩ := packBits_spec (codeBits len code) s
      exact hout
  · rw [rule] at he
    split_ifs at he
    · cases he
      exact List.prefix_refl _
    · obtain ⟨hout, -⟩ := walkBits_any _ _ _ he
      exact hout

/-- Settles O24: of the commands O23 lists for `out`, PEND, PCODE and DBYTE are left, and their rules append. -/
theorem outIsOnlyAppendedTo : Obligations.OutIsOnlyAppendedTo := by
  intro i s t he hps hls hclr
  obtain ⟨-, -, -, -, -, -, hout, -⟩ := eachRegisterIsWrittenOnlyByItsCommands i s t he
  by_cases hsame : t.out = s.out
  · rw [hsame]
  obtain ⟨-, -, hi⟩ | ⟨-, -, hi⟩ | ⟨-, -, hi⟩ := exec_cases i s
  · cases hi.symm.trans he
    exact List.prefix_refl _
  · cases hi.symm.trans he
    exact List.prefix_refl _
  · have hemits := (((hout hsame).resolve_left hclr).resolve_left hps).resolve_left hls
    exact rule_out_prefix hemits (hi.symm.trans he)

end Sys2Proof.Machine

/-! SUPPORT. The statements about the encoding of commands, their length and the step that executes them
(30_encoding.md R80 to R95). -/

namespace Sys2Proof

/-! ### Encoding and decoding agree (R95) -/

/-- Settles O6: what follows a command's bytes stays as the rest. -/
theorem decodeOfEncodeIsTheCommand : Obligations.DecodeOfEncodeIsTheCommand := fun _ hwf rest => decode_encode hwf rest

/-- Settles O7: each format's decoder keeps every byte it reads in the command or in the rest. -/
theorem encodeOfDecodedIsTheBytes : Obligations.EncodeOfDecodedIsTheBytes := fun _ _ _ h => encode_of_decode h

/-! ### The length of a command (R80, R91) -/

theorem encode_length (i : Instr) : Laws.Length.Statement i := by
  cases i with
  | nop => exact Laws.Length.nop
  | clr => exact Laws.Length.clr
  | pstart => exact Laws.Length.pstart
  | pcode len code => exact Laws.Length.pcode len code
  | pend => exact Laws.Length.pend
  | lstart => exact Laws.Length.lstart
  | lentry sym len code => exact Laws.Length.lentry sym len code
  | dstart n => exact Laws.Length.dstart n
  | dbyte b => exact Laws.Length.dbyte b
  | dend => exact Laws.Length.dend
  | illegal op => exact Laws.Length.illegal op

/-- R80: the bytes read for a command are as many as `cmdlen` says, which is from 1 to 35. -/
theorem cmdlen_of_decode {bs rest : List Byte} {i : Instr} (h : decode bs = .command i rest) :
    cmdlen bs = some (encode i).length ∧ 1 ≤ (encode i).length ∧ (encode i).length ≤ 35 := by
  obtain ⟨hwf, rfl⟩ := encode_of_decode h
  obtain ⟨hlen, hmin, hmax⟩ := encode_length i hwf
  exact ⟨hlen rest, hmin, hmax⟩

/-- R91: a partial command has too few bytes to tell its length, or fewer than its length, which is at most 35. -/
theorem cmdlen_of_incomplete {bs : List Byte} (h : decode bs = .reject .incomplete) :
    (cmdlen bs = none ∧ bs.length ≤ 2) ∨ ∃ n ≤ 35, cmdlen bs = some n ∧ bs.length < n := by
  obtain rfl | ⟨tl, ⟨rfl, h⟩ | ⟨rfl, h⟩ | ⟨rfl, h⟩ | ⟨rfl, h⟩⟩ := decode_incomplete_cases h
  · exact .inl ⟨rfl, by decide⟩
  · obtain rfl | ⟨len, code, rfl, hshort⟩ := decodePcode_incomplete h
    · exact .inl ⟨rfl, by decide⟩
    · have := ceilBytes_le len
      exact .inr ⟨2 + ceilBytes len, by omega, rfl, by simp only [List.length_cons]; omega⟩
  · obtain rfl | ⟨sym, rfl⟩ | ⟨sym, len, code, rfl, hshort⟩ := decodeLentry_incomplete h
    · exact .inl ⟨rfl, by decide⟩
    · exact .inl ⟨rfl, by simp⟩
    · have := ceilBytes_le len
      exact .inr ⟨3 + ceilBytes len, by omega, rfl, by simp only [List.length_cons]; omega⟩
  · have := decodeDstart_incomplete h
    exact .inr ⟨5, by decide, rfl, by simp only [List.length_cons]; omega⟩
  · obtain rfl := decodeDbyte_incomplete h
    exact .inr ⟨2, by decide, rfl, by decide⟩

theorem decode_incomplete_iff (bs : List Byte) :
    decode bs = .reject .incomplete ↔ ∀ n, cmdlen bs = some n → bs.length < n := by
  constructor
  · intro h n hn
    obtain ⟨hnone, -⟩ | ⟨_, -, hsome, hlt⟩ := cmdlen_of_incomplete h
    · cases hnone.symm.trans hn
    · cases hsome.symm.trans hn
      exact hlt
  · intro hshort
    cases hd : decode bs with
    | reject why => rfl
    | command i rest =>
      obtain ⟨hlen, -, -⟩ := cmdlen_of_decode hd
      obtain ⟨-, hbytes⟩ := encode_of_decode hd
      have hlt : bs.length < (encode i).length := hshort _ hlen
      rw [← hbytes, List.length_append] at hlt
      omega

/-- Settles O8: a command is the bytes of its encoding, and a partial command is shorter than its length. -/
theorem commandsTakeCmdlenBytes : Obligations.CommandsTakeCmdlenBytes := by
  refine fun bs => ⟨fun i rest => cmdlen_of_decode, decode_incomplete_iff bs, fun h => ?_⟩
  obtain ⟨-, hle⟩ | ⟨n, hn, -, hlt⟩ := cmdlen_of_incomplete h
  · omega
  · omega

/-! ### Words and the bit count (R82, R83, R85) -/

/-- Settles O9: each word runs through the decoder. -/
theorem wordsDecodeToTheirCommands : Obligations.WordsDecodeToTheirCommands :=
  ⟨rfl, rfl, rfl, rfl, rfl, rfl, rfl, rfl, rfl, rfl, rfl⟩

/-- Settles O11: the operand is the four bytes put together, the first on top. -/
theorem bitCountIsBigEndian : Obligations.BitCountIsBigEndian := fun b1 b2 b3 b4 _ =>
  ⟨bigEndian32 b1 b2 b3 b4, rfl, bigEndian32_toNat b1 b2 b3 b4⟩

end Sys2Proof

namespace Sys2Proof.Machine

/-! ### The code of PCODE and LENTRY (R85) -/

theorem getElem?_codeBits {len : Byte} {i : Nat} (code : List Byte) (h : i < len.toNat) :
    (codeBits len code)[i]? = some (bitAt code i) := by
  rw [codeBits, List.getElem?_map, List.getElem?_range h, Option.map_some]

/-- Settles O10: no bit of the code is read from a byte that is not there. -/
theorem codeBitsAreMostSignificantFirst : Obligations.CodeBitsAreMostSignificantFirst := by
  refine ⟨fun len code _ => ⟨length_codeBits len code, fun i hbyte hi => ?_⟩, rfl, rfl, rfl⟩
  rw [getElem?_codeBits code hi, bitAt, List.getD_eq_getElem code 0 hbyte]

/-! ### The command that a byte completes, and reserved opcodes (R88, R91, R114) -/

/-- Settles O12: this is the case of `step_completes` with nothing left over. -/
theorem stepExecutesTheDecodedCommand : Obligations.StepExecutesTheDecodedCommand := fun _ _ _ _ hi hd =>
  step_completes hi hd

/-- Settles O18: a reserved opcode byte is its own encoding, and dispatch finds ILLEGAL legal in no phase. -/
theorem reservedOpcodeRaisesIllegalCommand : Obligations.ReservedOpcodeRaisesIllegalCommand := by
  constructor
  · intro op rest hop
    have hwf : (Instr.illegal op).wf = true := (reservedOpcode_iff op).2 (by simpa using hop)
    exact decode_encode hwf rest
  · exact fun op s => ⟨fun hf => exec_illegal hf rfl, fun hf => exec_fault nofun hf⟩

end Sys2Proof.Machine

/-! SUPPORT. The statements about the control commands, the legality table and the phase changes
(40_control.md R110 to R115). -/

namespace Sys2Proof.Machine

/-! ### The phase that an execution leads to (R115) -/

/-- The phase in which the command leaves the unit when it completes in phase `p` (R115). -/
def completionPhase : Instr → Phase → Phase
  | .nop, p => p
  | .clr, _ => .idle
  | .pstart, _ => .pack
  | .pcode _ _, p => p
  | .pend, _ => .done
  | .lstart, _ => .load
  | .lentry _ _ _, p => p
  | .dstart _, _ => .decode
  | .dbyte _, p => p
  | .dend, _ => .done
  | .illegal _, p => p

/-- Fault entry has happened: the phase is FAULT and an error is recorded (R170). -/
def Raised (t : State) : Prop := t.fsm = .fault ∧ t.err ≠ none

theorem raise_raised {k : ErrorKind} {s t : State} (he : raise k s = .next t) : Raised t := by
  cases he
  exact ⟨rfl, nofun⟩

theorem packBits_fsm (bs : BitString) (s : State) : (packBits bs s).fsm = s.fsm := by
  obtain ⟨-, -, -, -, hframe⟩ := packBits_spec bs s
  rw [hframe]

theorem insertCode_fsm {sym : Byte} {bs : BitString} {p : NodeIndex} {s t : State}
    (he : insertCode sym bs p s = .next t) : t.fsm = s.fsm ∨ Raised t := by
  obtain ⟨k, herr, hfsm, -⟩ | hinserted := insertCode_any sym bs p s t he
  · exact .inr ⟨hfsm, by simp [herr]⟩
  · left
    rw [hinserted]

theorem walkBits_fsm {bs : BitString} {s t : State} (he : walkBits bs s = .next t) : t.fsm = s.fsm ∨ Raised t := by
  induction bs generalizing s with
  | nil =>
    rw [walkBits] at he
    split at he
    · exact .inr (raise_raised he)
    · cases he
      exact .inl rfl
  | cons b bs ih =>
    simp only [walkBits, walkStep, withNode] at he
    split at he
    · split at he
      · exact .inr (raise_raised he)
      · split at he
        · split at he
          · exact (ih he :)
          · exact (ih he :)
        · cases he
    · cases he

/-- A command's rule completes in the phase R115 gives it, or raises. -/
theorem rule_fsm {i : Instr} {s t : State} (he : rule i s = .next t) :
    t.fsm = completionPhase i s.fsm ∨ Raised t := by
  cases i with
  | nop | clr | pstart | lstart =>
    cases he
    exact .inl rfl
  | pcode len code =>
    rw [rule] at he
    split_ifs at he
    · exact .inr (raise_raised he)
    · exact .inr (raise_raised he)
    · cases he
      exact .inl (packBits_fsm _ s)
  | pend =>
    rw [rule] at he
    split_ifs at he <;> cases he <;> exact .inl rfl
  | lentry sym len code =>
    rw [rule] at he
    split_ifs at he
    · exact .inr (raise_raised he)
    · exact .inr (raise_raised he)
    · exact insertCode_fsm he
  | dstart n =>
    rw [rule] at he
    split_ifs at he
    · exact .inr (raise_raised he)
    · cases he
      exact .inl rfl
  | dbyte b =>
    rw [rule] at he
    split_ifs at he
    · exact .inr (raise_raised he)
    · exact walkBits_fsm he
  | dend =>
    rw [rule] at he
    split_ifs at he
    · exact .inr (raise_raised he)
    · cases he
      exact .inl rfl
  | illegal op => exact .inr (raise_raised he)

/-- DEND completes only with no payload bits left (R143). -/
theorem rem_of_dend_done {s t : State} (he : rule .dend s = .next t) (ht : t.fsm = .done) : s.rem = 0 := by
  by_contra hrem
  rw [rule, if_pos hrem] at he
  cases he
  cases ht

/-- Settles O21: `rule_fsm` gives the phase after a command that completes, the legality table the phase before it. -/
theorem phaseChangesOnlyAsListed : Obligations.PhaseChangesOnlyAsListed := by
  intro i s t he hne
  have hfault (hr : Raised t) : s.fsm ≠ .fault ∧ t.fsm = .fault ∧ t.err ≠ none :=
    ⟨fun hs => hne (hr.1.trans hs.symm), hr⟩
  obtain ⟨-, -, hi⟩ | ⟨-, -, hi⟩ | ⟨-, hl, hi⟩ := exec_cases i s
  · cases hi.symm.trans he
    exact absurd rfl hne
  · simp [hfault (raise_raised (hi.symm.trans he))]
  · have hrule : rule i s = .next t := hi.symm.trans he
    obtain hphase | hr := rule_fsm hrule
    · cases i with
      | nop | pcode | lentry | dbyte | illegal => exact absurd hphase hne
      | clr => exact .inl ⟨rfl, hphase⟩
      | pstart => exact .inr (.inl ⟨rfl, by simpa [legal] using hl, hphase⟩)
      | pend => exact .inr (.inr (.inl ⟨rfl, by simpa [legal] using hl, hphase⟩))
      | lstart => exact .inr (.inr (.inr (.inl ⟨rfl, by simpa [legal] using hl, hphase⟩)))
      | dstart n => exact .inr (.inr (.inr (.inr (.inl ⟨⟨n, rfl⟩, by simpa [legal] using hl, hphase⟩))))
      | dend =>
        exact .inr (.inr (.inr (.inr (.inr (.inl
          ⟨rfl, by simpa [legal] using hl, rem_of_dend_done hrule hphase, hphase⟩)))))
    · simp [hfault hr]

/-! ### NOP, CLR and the legality table (R111 to R113) -/

/-- NOP is ignored in FAULT and has no effect of its own in any other phase (R112). -/
theorem exec_nop (s : State) : exec .nop s = .next s := by
  by_cases hf : s.fsm = .fault
  · exact exec_fault nofun hf
  · rw [exec_legal hf (by simpa [legal] using hf), rule]

/-- Settles O16: 0x00 is the encoding of NOP. -/
theorem nopChangesNothing : Obligations.NopChangesNothing := ⟨decode_encode (i := .nop) rfl, exec_nop⟩

/-- Settles O17: 0x01 is the encoding of CLR, and its clearing is the reset state but for `cbuf` and `inputs`. -/
theorem clrCompletesInEveryPhase : Obligations.ClrCompletesInEveryPhase := ⟨decode_encode (i := .clr) rfl, exec_clr⟩

/-- What the table of R111 marks ILL, the model's legality table forbids. -/
theorem legal_eq_false_of_markedIllegal {i : Instr} {p : Phase} (h : MarkedIllegal i p) : legal i p = false := by
  obtain ⟨hi, hidle, hdone⟩ | ⟨hi, hp⟩ | ⟨hi, hp⟩ | ⟨hi, hp⟩ | ⟨op, rfl⟩ := h
  · obtain rfl | rfl := hi <;> simp [legal, hidle, hdone]
  · obtain ⟨len, code, rfl⟩ | rfl := hi <;> simp [legal, hp]
  · obtain ⟨sym, len, code, rfl⟩ | ⟨n, rfl⟩ := hi <;> simp [legal, hp]
  · obtain ⟨b, rfl⟩ | rfl := hi <;> simp [legal, hp]
  · rfl

/-- Settles O19: dispatch raises IllegalCommand before a command's rule is reached. -/
theorem outOfPhaseCommandRaisesIllegalCommand : Obligations.OutOfPhaseCommandRaisesIllegalCommand :=
  fun _ _ hf h => exec_illegal hf (legal_eq_false_of_markedIllegal h)

end Sys2Proof.Machine

/-! SUPPORT. The statements about the table load (41_table_load.md R121 to R126). -/

namespace Sys2Proof.Machine

/-! ### LSTART and the operand checks of LENTRY (R121 to R123) -/

/-- Settles O33: 0x20 is the encoding of LSTART, whose rule runs in IDLE and DONE; the legality table forbids it in the
three working phases. -/
theorem lstartOpensALoad : Obligations.LstartOpensALoad := by
  refine ⟨decode_encode (i := .lstart) rfl, fun s => ⟨exec_start (.inr rfl), fun hp => ?_⟩⟩
  obtain hp | hp | hp := hp <;> exact exec_illegal (by simp [hp]) (by simp [hp, legal])

theorem exec_lentry_rule {s : State} (hp : s.fsm = .load) (sym len : Byte) (code : List Byte) :
    exec (.lentry sym len code) s = rule (.lentry sym len code) s :=
  exec_legal (by simp [hp]) (by simp [hp, legal])

/-- Settles O34: the length is checked before the symbol is looked at. -/
theorem lentryZeroLengthIsCorrupt : Obligations.LentryZeroLengthIsCorrupt := by
  intro sym code s hp
  rw [exec_lentry_rule hp, rule, if_pos rfl]
  rfl

/-- Settles O35: the mark of the symbol is checked before the code's path. -/
theorem lentryRepeatedSymbolIsMalformed : Obligations.LentryRepeatedSymbolIsMalformed := by
  intro sym len code s hp hl hseen
  rw [exec_lentry_rule hp, rule, if_neg hl, if_pos hseen]
  rfl

/-! ### What an insertion does to the registers (R124) -/

section inserted

variable {sym : Byte} {w : BitString} {s t : State}

theorem Inserted.fsm (h : Inserted sym w s t) : t.fsm = s.fsm := by rw [h.frame]

/-- Of the registers only the three that R124 names change. -/
theorem Inserted.registers (h : Inserted sym w s t) :
    t = { s with nfree := t.nfree, nent := t.nent, seen := t.seen, mem := t.mem } := by rw [h.frame]

theorem Inserted.getLsbD_seen (h : Inserted sym w s t) (y : Byte) :
    t.seen.getLsbD y.toNat = (decide (y = sym) || s.seen.getLsbD y.toNat) := by
  have hseen : t.seen = s.seen ||| BitVec.twoPow 256 sym.toNat := by rw [h.frame]
  simp only [hseen, getLsbD_mark, BitVec.toNat_inj, Bool.or_comm]

/-- No word at or above the new `nfree` has been written, before or after. -/
theorem Inserted.read_above (h : Inserted sym w s t) (hg : Growing s.mem s.nfree.toNat 0)
    (hle : s.nfree.toNat ≤ t.nfree.toNat) {i : Nat} (hi : t.nfree.toNat ≤ i) : memRead t.mem i = memRead s.mem i := by
  rw [h.tree.read_none hi, hg.read_none (hle.trans hi)]

end inserted

/-! ### The path checks and the new entry (R124, R125) -/

/-- Settles O36: without a conflict LENTRY is a successful insertion, and no word above the new nodes is written. -/
theorem lentryAddsTheEntry : Obligations.LentryAddsTheEntry := by
  intro sym len code s h hp hl hseen hfree
  obtain ⟨hc, -⟩ | ⟨-, t, ht, hi, hnent, d, b, rest, n, hdiv, hold, hlink, hnfree, -, hbelow, hnew⟩ :=
    lentry_spec h hp sym len code hl hseen
  · exact absurd hc hfree
  have hg := (treeOk_iff_growing _ _).1 h.tree
  refine ⟨t, (exec_lentry_insert hp hl hseen code).trans ht, hi.table, hnent, hi.getLsbD_seen, hi.registers,
    d, b, rest, n, hdiv, hold, hlink, hnfree, hnew, ?_⟩
  rintro i (hlt | hge) hid
  · exact hbelow i hlt hid
  · exact hi.read_above hg (by omega) hge

/-- Settles O37: LENTRY either meets a conflict and raises, or inserts the code and stays in LOAD. -/
theorem lentryConflictIsMalformed : Obligations.LentryConflictIsMalformed := by
  intro sym len code s h hp hl hseen
  rw [exec_lentry_insert hp hl hseen]
  obtain ⟨hc, hraise⟩ | ⟨hfree, t, ht, hi, -⟩ := lentry_spec h hp sym len code hl hseen
  · exact iff_of_true hraise hc
  · refine iff_of_false (fun he => ?_) hfree
    have hload := hi.fsm.trans hp
    cases ht.symm.trans he
    cases hload

/-! ### The bounds of the node memory (R126) -/

/-- Settles O38: `nent` counts the symbols marked, of which there are 256, and each entry created at most 255 nodes
beside the root. -/
theorem nodeMemoryCannotFillUp : Obligations.NodeMemoryCannotFillUp := by
  intro s h
  have hmarks := h.seenMarks
  have hsymbols := seenCount_le s.seen
  have hnodes := h.allocated
  exact ⟨by omega, by omega, nfree_pos h⟩

end Sys2Proof.Machine

/-! SUPPORT. The statements about the packer (42_packer.md R131 to R136). -/

namespace Sys2Proof.Machine

/-! ### A packing run (R134, R136) -/

/-- Settles O32: the run before PEND is `Packing` the codes one after another, and PEND makes it `Packed`. -/
theorem packingRunConcatenatesTheCodes : Obligations.PackingRunConcatenatesTheCodes := by
  intro s codes hs hl hfit
  obtain ⟨t, ht, hT⟩ := execAll_pstart_packing hs hl hfit
  obtain ⟨u, hu, hU⟩ := execAll_packed hs hl hfit
  obtain ⟨hout, hnacc⟩ := hT.length
  exact ⟨⟨t, ht, hT.pack, hT.count, hout, hnacc, hT.bits⟩, u, hu, hU.done, hU.count, hU.length, hU.bits⟩

/-! ### PCODE (R132) -/

/-- PCODE's loop leaves the count alone; the command adds L to it once, after the loop. -/
theorem packBits_bitcnt (bs : BitString) (s : State) : (packBits bs s).bitcnt = s.bitcnt := by
  obtain ⟨-, -, -, -, hframe⟩ := packBits_spec bs s
  rw [hframe]

theorem packBits_withBitcnt (bs : BitString) (n : BitCount) (s : State) :
    { packBits bs s with bitcnt := n } =
      { s with acc := (packBits bs s).acc, nacc := (packBits bs s).nacc, bitcnt := n, out := (packBits bs s).out } := by
  obtain ⟨-, -, -, -, hframe⟩ := packBits_spec bs s
  exact congrArg (fun t : State => { t with bitcnt := n }) hframe

/-- Settles O29: `packBits_spec` for the bits of the code, and an addition to `bitcnt` that does not wrap. -/
theorem pcodeAppendsTheCode : Obligations.PcodeAppendsTheCode := by
  intro len code s hp hl hfit
  obtain ⟨hbits, hnacc, hacc, hout, -⟩ := packBits_spec (codeBits len code) s
  rw [length_codeBits] at hnacc
  refine ⟨_, exec_pcode_next hp hl hfit code, hbits, ?_, hnacc, hacc, hout, packBits_withBitcnt _ _ s⟩
  simp only [packBits_bitcnt]
  exact toNat_bitcnt_add_len hfit

/-! ### PEND and PSTART (R131, R133) -/

theorem exec_pend_rule {s : State} (hp : s.fsm = .pack) : exec .pend s = rule .pend s :=
  exec_legal (by simp [hp]) (by simp [hp, legal])

/-- Settles O31: 0x12 is the encoding of PEND, and `byteBits_flush` gives the bits of the byte it emits. -/
theorem pendFlushesThePendingBits : Obligations.PendFlushesThePendingBits := by
  refine ⟨decode_encode (i := .pend) rfl, fun s => ⟨fun hp hz => ?_, fun hp hz => ?_, fun hp hf => ?_⟩⟩
  · rw [exec_pend_rule hp, rule, if_pos hz]
  · refine ⟨s.acc <<< (8 - s.nacc.toNat), ?_, byteBits_flush s⟩
    rw [exec_pend_rule hp, rule, if_neg hz]
    rfl
  · exact exec_illegal hf (by simp [legal, hp])

/-- Settles O28: 0x10 is the encoding of PSTART, whose rule runs in IDLE and DONE; the legality table forbids it in the
three working phases. -/
theorem pstartOpensARun : Obligations.PstartOpensARun := by
  refine ⟨decode_encode (i := .pstart) rfl, fun s => ⟨exec_start (.inl rfl), fun hp => ?_⟩⟩
  obtain hp | hp | hp := hp <;> exact exec_illegal (by simp [hp]) (by simp [hp, legal])

end Sys2Proof.Machine

/-! SUPPORT. The statements about the unpacker and the tree walker (43_unpack_walk.md R142 to R149). -/

namespace Sys2Proof.Machine

/-! ### The byte count: DBYTE and DEND against `rem` (R143, R147) -/

theorem exec_dbyte_rule {s : State} (hp : s.fsm = .decode) (b : Byte) : exec (.dbyte b) s = rule (.dbyte b) s :=
  exec_legal (by simp [hp]) (by simp [hp, legal])

/-- A DEND before the last payload bit is a truncation, whatever the number of bits missing (R143, R147). -/
theorem exec_dend_truncated {s : State} (hp : s.fsm = .decode) (hr : s.rem ≠ 0) :
    exec .dend s = .next (faultEntry .truncatedPayload s) := by
  rw [exec_legal (by simp [hp]) (by simp [hp, legal]), rule, if_pos hr]
  rfl

/-- Settles O45: both commands look at `rem` before they do anything else. -/
theorem tooManyOrTooFewBytes : Obligations.TooManyOrTooFewBytes := by
  refine fun s hp => ⟨fun hr b => ?_, exec_dend_truncated hp⟩
  rw [exec_dbyte_rule hp, rule, if_pos hr]
  rfl

/-- Settles O46: 0x32 is the encoding of DEND, which the legality table allows in DECODE only. -/
theorem dendEndsTheDecode : Obligations.DendEndsTheDecode :=
  ⟨decode_encode (i := .dend) rfl, fun _ => ⟨exec_dend_next, exec_dend_truncated, fun hp hf =>
    exec_illegal hf (by simp [legal, hp])⟩⟩

/-! ### The walk over one byte (R142, R144 to R149) -/

/-- With payload bits to come, DBYTE is the walk over the byte's payload bits (R142). -/
theorem exec_dbyte_walk {s : State} (hp : s.fsm = .decode) (hr : s.rem ≠ 0) (b : Byte) :
    exec (.dbyte b) s = walkBits (payloadBits b s.rem) s := by
  rw [exec_dbyte_rule hp, rule, if_neg hr]

/-- Settles O41: `exec_dbyte_parses`, the payload bits written out. -/
theorem dbyteWalksThePayload : Obligations.DbyteWalksThePayload :=
  fun _ _ _ _ _ h hp hr hu hps hend => exec_dbyte_parses h hp hr hu hps hend

/-- Settles O42: the walk consumes every bit that was left, and the check after it finds the cursor off the root. -/
theorem dbyteLeftoverPathIsCorrupt : Obligations.DbyteLeftoverPathIsCorrupt := by
  intro b s u syms i h hp hr hu hps hlast hi
  have hlen : (payloadBits b s.rem).length = s.rem.toNat := by rw [length_payloadBits, Nat.min_eq_right hlast]
  have hwalk := walk_to h hp (payloadBits b s.rem) [] u syms i hu hps hlen.le
  rw [List.append_nil, hlen, Nat.sub_self] at hwalk
  rw [exec_dbyte_walk hp hr, hwalk, walkBits, if_pos ⟨rfl, hi⟩]
  rfl

/-- Settles O43: the walk follows the bits `v` to the node `i`, and the next step counts its bit and finds no child. -/
theorem dbyteMissingChildIsCorrupt : Obligations.DbyteMissingChildIsCorrupt := by
  intro b s u v rest bit syms i n h hp hr hu hbits hps hn hz
  replace hbits : payloadBits b s.rem = v ++ bit :: rest := hbits
  have hlt : v.length < s.rem.toNat := by
    have hlen := congrArg List.length hbits
    rw [length_payloadBits, List.length_append, List.length_cons] at hlen
    omega
  have hcount : BitVec.ofNat 32 (s.rem.toNat - v.length) - 1 = BitVec.ofNat 32 (s.rem.toNat - (v.length + 1)) := by
    have hleft := toNat_ofNat_sub s.rem v.length
    exact (sub_ofNat_eq (k := 1) (by rw [hleft]; omega)).trans (by rw [hleft, Nat.sub_sub])
  rw [exec_dbyte_walk hp hr, hbits, walk_to h hp v (bit :: rest) u syms i hu hps hlt.le, walkBits_missing hn hz, hcount]
  rfl

/-- Settles O44: the cursor is an INTERNAL node of the tree, so a path leads to it and `Growing.parses_or_missing`
speaks of the bits from there. -/
theorem everyPayloadParsesOrMissesAChild : Obligations.EveryPayloadParsesOrMissesAChild := by
  intro s bits h hp
  have hg := (treeOk_iff_growing _ _).1 h.tree
  obtain ⟨n, hn, hinternal⟩ := cursor_read h hp
  obtain ⟨u, hu⟩ := hg.path_to s.cur (hg.read_lt hn)
  exact ⟨u, hu, hg.parses_or_missing (nfree_pos h (.inr hp)) bits hu hn hinternal⟩

/-! ### A whole decode (R148) -/

/-- `nent` counts the LEAF nodes (R36 (d)), so a table with an entry has `nent` not 0. -/
theorem nent_ne_zero_of_lookup {s : State} {w : BitString} {sym : Byte} (h : Invariant s)
    (hw : tableLookup s.mem w = some sym) : s.nent ≠ 0 := by
  have hg := (treeOk_iff_growing _ _).1 h.tree
  obtain ⟨i, n, -, hn, hleaf, -⟩ := tableLookup_some hw
  have hpos : 0 < leafCount s.mem :=
    List.countP_pos_iff.2 ⟨(i.toNat, n), (mem_iff_memRead hg.sorted _ _).2 hn, by simpa using hleaf⟩
  rw [h.leaves] at hpos
  intro hz
  simp [hz] at hpos

/-- Bits that split into codes without a rest begin with a code, or there are none: only the empty path leads from the
root to the root. -/
theorem Growing.parses_root {m : Memory} {k x : Nat} (hg : Growing m k x) {bits : BitString} {syms : List Byte}
    (h : Parses m bits syms 0) : bits = [] ∨ ∃ w sym, tableLookup m w = some sym := by
  cases h with
  | rest _ _ hf _ => exact .inl (hg.follow_inj hf rfl)
  | code w sym _ _ _ hw _ => exact .inr ⟨w, sym, hw⟩

/-- Settles O47: DSTART finds an entry loaded or no bits declared, and `execAll_decode` is the rest of the run. -/
theorem decodingRunRecoversTheSymbols : Obligations.DecodingRunRecoversTheSymbols := by
  intro s n bytes syms h hp hlen hps
  have hstart : s.nent ≠ 0 ∨ n = 0 := by
    obtain hnil | ⟨w, sym, hw⟩ := ((treeOk_iff_growing _ _).1 h.tree).parses_root hps
    · right
      have hbits := congrArg List.length hnil
      rw [List.length_take, length_flatMap_byteBits, List.length_nil] at hbits
      exact bitVec_eq_of_toNat (by simp; omega)
    · exact .inl (nent_ne_zero_of_lookup h hw)
  have hrun := execAll_decode h hp hstart hlen hps
  exact ⟨_, hrun, execAll_keeps_invariant h hrun, rfl, rfl⟩

end Sys2Proof.Machine

/-! SUPPORT. The statements about faults and the operand checks that raise (60_exceptions.md R161 to R173). -/

namespace Sys2Proof.Machine

/-! ### What a faulting command has written (R170, R171) -/

theorem raise_next_iff {k : ErrorKind} {s t : State} : raise k s = .next t ↔ t = faultEntry k s := by
  rw [raise, Host.Outcome.next.injEq, eq_comm]

/-- A command that takes the unit into FAULT records its error kind (R170). -/
theorem exec_records_error {i : Instr} {s t : State} (hf : s.fsm ≠ .fault) (he : exec i s = .next t)
    (ht : t.fsm = .fault) : ∃ k, t.err = some k := by
  have hchange := phaseChangesOnlyAsListed i s t he (fun hsame => hf (hsame.symm.trans ht))
  simp only [ht, reduceCtorEq, and_false, false_or] at hchange
  obtain ⟨-, -, herr⟩ := hchange
  exact Option.ne_none_iff_exists'.1 herr

/-- Under the invariant a rule other than DBYTE's that ends in FAULT has done fault entry and nothing else. LENTRY
needs the invariant: only in a tree are its path checks over before it creates a node (R125). -/
theorem rule_faults_by_raise {i : Instr} {s t : State} (h : Invariant s) (hl : legal i s.fsm = true)
    (hf : s.fsm ≠ .fault) (hi : ∀ b, i ≠ .dbyte b) (he : rule i s = .next t) (ht : t.fsm = .fault) :
    ∃ k, t = faultEntry k s := by
  cases i with
  | nop =>
    cases he
    exact absurd ht hf
  | clr | pstart | lstart =>
    cases he
    cases ht
  | pcode len code =>
    rw [rule] at he
    split_ifs at he
    · exact ⟨_, raise_next_iff.1 he⟩
    · exact ⟨_, raise_next_iff.1 he⟩
    · cases he
      exact absurd ((packBits_fsm _ s).symm.trans ht) hf
  | pend =>
    rw [rule] at he
    split_ifs at he <;> cases he <;> cases ht
  | lentry sym len code =>
    rw [rule] at he
    split_ifs at he with hlen hseen
    · exact ⟨_, raise_next_iff.1 he⟩
    · exact ⟨_, raise_next_iff.1 he⟩
    · obtain ⟨-, hraise⟩ | ⟨-, u, hu, hinserted, -⟩ :=
        lentry_spec h (by simpa [legal] using hl) sym len code hlen (by simpa using hseen)
      · exact ⟨_, raise_next_iff.1 (hraise.symm.trans he)⟩
      · cases hu.symm.trans he
        exact absurd (hinserted.fsm.symm.trans ht) hf
  | dstart n =>
    rw [rule] at he
    split_ifs at he
    · exact ⟨_, raise_next_iff.1 he⟩
    · cases he
      cases ht
  | dbyte b => exact absurd rfl (hi b)
  | dend =>
    rw [rule] at he
    split_ifs at he
    · exact ⟨_, raise_next_iff.1 he⟩
    · cases he
      cases ht
  | illegal op => exact ⟨_, raise_next_iff.1 he⟩

theorem exec_faults_by_raise {i : Instr} {s t : State} (h : Invariant s) (hf : s.fsm ≠ .fault)
    (hi : ∀ b, i ≠ .dbyte b) (he : exec i s = .next t) (ht : t.fsm = .fault) : ∃ k, t = faultEntry k s := by
  obtain ⟨-, hfault, -⟩ | ⟨-, -, hx⟩ | ⟨-, hl, hx⟩ := exec_cases i s
  · exact absurd hfault hf
  · cases hx.symm.trans he
    exact ⟨_, rfl⟩
  · exact rule_faults_by_raise h hl hf hi (hx.symm.trans he) ht

/-- A DBYTE that faults keeps what its walk wrote: the registers O23 gives it, beside those of fault entry (R171). -/
theorem exec_dbyte_fault_frame {b : Byte} {s t : State} (hf : s.fsm ≠ .fault) (he : exec (.dbyte b) s = .next t)
    (ht : t.fsm = .fault) : t = { s with fsm := .fault, err := t.err, rem := t.rem, cur := t.cur, out := t.out } := by
  obtain hcompleted | hfaulted := exec_writesItsOwn he
  · have hfsm : t.fsm = s.fsm := by
      rw [hcompleted]
      rfl
    exact absurd (hfsm.symm.trans ht) hf
  · exact hfaulted

/-- Settles O22: `exec_faults_by_raise`, and for DBYTE its own registers and O24. -/
theorem faultingCommandsWriteOnlyFsmAndErr : Obligations.FaultingCommandsWriteOnlyFsmAndErr := by
  intro i s t h hf he ht
  obtain ⟨k, hk⟩ := exec_records_error hf he ht
  refine ⟨k, hk, fun hi => ?_, ?_⟩
  · obtain ⟨k', rfl⟩ := exec_faults_by_raise h hf hi he ht
    cases hk
    rfl
  · rintro b rfl
    exact ⟨hk ▸ exec_dbyte_fault_frame hf he ht, outIsOnlyAppendedTo _ s t he nofun nofun nofun⟩

/-! ### The FAULT phase (R173) -/

/-- Settles O20: dispatch ignores the command that the byte completes, and a byte that completes none is buffered. -/
theorem faultIsSticky : Obligations.FaultIsSticky := by
  refine fun s hf => ⟨fun i hi => exec_fault hi hf, fun b later hin hclr => ?_, partialCommandHasNoEffect.2 s⟩
  cases hd : decode (s.cbuf ++ [b]) with
  | reject w =>
    cases w
    exact ⟨_, partialCommandHasNoEffect.1 s b later hin hd⟩
  | command i rest =>
    have hi : i ≠ .clr := by
      rintro rfl
      exact hclr rest hd
    exact ⟨rest, (step_completes hin hd).trans (exec_fault hi hf)⟩

/-! ### The operand checks of PCODE and DSTART (R161, R165) -/

theorem exec_pcode_rule {s : State} (hp : s.fsm = .pack) (len : Byte) (code : List Byte) :
    exec (.pcode len code) s = rule (.pcode len code) s :=
  exec_legal (by simp [hp]) (by simp [hp, legal])

/-- Settles O30: the rule checks the length and then the sum, before it writes anything. -/
theorem pcodeChecksLengthThenOverflow : Obligations.PcodeChecksLengthThenOverflow := by
  refine fun len code s hp => ⟨fun hl => ?_, fun hl hsum => ?_⟩
  · rw [exec_pcode_rule hp, rule, if_pos hl]
    rfl
  · replace hsum : s.bitcnt.toNat + len.toNat > Config.maxBitCount := hsum
    rw [exec_pcode_rule hp, rule, if_neg hl, if_pos hsum]
    rfl

theorem exec_dstart_empty {s : State} {n : BitCount} (hp : s.fsm = .load) (hz : s.nent = 0) (hn : n ≠ 0) :
    exec (.dstart n) s = .next (faultEntry .emptyAlphabet s) := by
  rw [exec_legal (by simp [hp]) (by simp [hp, legal]), rule, if_pos ⟨hz, hn⟩]
  rfl

/-- Settles O40: the two outcomes of DSTART's check that a payload has a table to decode it. -/
theorem dstartDeclaresThePayload : Obligations.DstartDeclaresThePayload :=
  fun _ _ hp => ⟨exec_dstart_next hp, exec_dstart_empty hp⟩

end Sys2Proof.Machine

/-! SUPPORT. The statements about hardware reset and about what passes from one operation to the next
(70_reset_and_hazards.md R190 to R203). -/

namespace Sys2Proof.Machine

/-- Settles O2: with a reset at the head of the host's queue, of the four things a step can do only the reset is left. -/
theorem hardwareResetLeavesTheResetState : Obligations.HardwareResetLeavesTheResetState := by
  intro s later hin
  obtain ⟨h, -⟩ | ⟨_, h, hs⟩ | ⟨_, _, h, -⟩ | ⟨_, _, _, _, h, -⟩ := step_cases s <;> cases hin.symm.trans h
  exact hs

/-- No error stands in IDLE and DONE, where an operation can start (R36 (a)). -/
theorem Invariant.err_of_startable {s : State} (h : Invariant s) (hs : s.fsm = .idle ∨ s.fsm = .done) : s.err = none := by
  refine h.errIffFault.mpr ?_
  rcases hs with hs | hs <;> simp [hs]

/-- The clearing of PSTART and LSTART leaves, beside the phase, nothing of the state but `err`, `cbuf` and the host's
queue (R38). -/
theorem clearOperation_congr {s s' : State} (herr : s.err = s'.err) (hcbuf : s.cbuf = s'.cbuf)
    (hinputs : s.inputs = s'.inputs) : clearOperation s = { clearOperation s' with fsm := s.fsm } := by
  simp only [clearOperation, herr, hcbuf, hinputs]

/-- Settles O27: both commands complete, clear all but `err`, `cbuf` and the queue, and set the phase; and under the
invariant `err` is none where they complete. -/
theorem nothingCarriesOverBetweenOperations : Obligations.NothingCarriesOverBetweenOperations := by
  intro i s s' hi h h' hs hs' hcbuf hinputs
  have herr : s.err = s'.err := (h.err_of_startable hs).trans (h'.err_of_startable hs').symm
  rw [exec_start hi hs, exec_start hi hs']
  have hclear := clearOperation_congr herr hcbuf hinputs
  rcases hi with rfl | rfl
  · rw [rule, rule, hclear]
  · rw [rule, rule, hclear]
    rfl

end Sys2Proof.Machine
